-- ==== Sys2Proof/Word.lean ====
section
/-! DEFINITION. The widths of the machine: a byte of buffer memory (00_scope.md R11) and a register word (00_scope.md
R6, `REG_W` = `ADDR_W` = 32). -/

namespace Sys2Proof

/-- A byte or a character (00_scope.md R11). -/
abbrev Byte := BitVec 8

/-- A host register, a command word, an address or a length (00_scope.md R6). -/
abbrev Word := BitVec 32

end Sys2Proof
end

