-- ==== Sys2Proof/Syntax.lean ====
section
/-! DEFINITION. The command set B64CMD version 1 (00_scope.md R3): one constructor per row of the opcode map
(30_encoding.md R72). No command word carries an operand (R70, R76), so no constructor has a field. -/

namespace Sys2Proof

/-- The fourteen commands, in the order of 30_encoding.md R72. -/
inductive Instr where
  /-- NOP (40_control.md R94). -/
  | nop
  /-- ENCODE (41_encoder.md R104). -/
  | encode
  /-- DECODE (42_decoder.md R125). -/
  | decode
  /-- ENCGRP (41_encoder.md R105). -/
  | encgrp
  /-- ENCT1 (41_encoder.md R106). -/
  | enct1
  /-- ENCT2 (41_encoder.md R107). -/
  | enct2
  /-- DECGRP (42_decoder.md R126). -/
  | decgrp
  /-- DECFIN (42_decoder.md R127). -/
  | decfin
  /-- ROMRD.F (43_lookup_rom.md R149). -/
  | romrdF
  /-- ROMRD.PF (43_lookup_rom.md R150). -/
  | romrdPf
  /-- ROMRD.R (43_lookup_rom.md R151). -/
  | romrdR
  /-- ROMRD.PR (43_lookup_rom.md R152). -/
  | romrdPr
  /-- SPLIT6 (44_bit_pack_unpack.md R166). -/
  | split6
  /-- JOIN6 (44_bit_pack_unpack.md R167). -/
  | join6
  deriving DecidableEq, Repr

end Sys2Proof
end

