-- ==== Sys2Proof/Decode.lean ====
section
/-! DEFINITION. The command decoder (30_encoding.md R73), total on all 2^32 words and rejecting by name, then the
encoder written from the opcode map (R72), and the reading of a word as the opcode table numbers its bits. -/

namespace Sys2Proof

/-- What the block makes of a command word (30_encoding.md R73, R77). -/
inductive Decoded where
  /-- One of the fourteen legal words. -/
  | legal (i : Instr)
  /-- OPC above 0x0A, whatever the other bits: error code 1 (60_exceptions.md R181). -/
  | illegal
  /-- OPC at most 0x0A, but RSV is not 0, or WAY is not 0 with OPC other than 0x08: error code 2 (R182). -/
  | reserved
  deriving DecidableEq, Repr

/-- OPC, bits 7:0 (30_encoding.md R70). -/
def opcOf (w : Word) : BitVec 8 := w.extractLsb' 0 8

/-- WAY, bits 9:8 (30_encoding.md R70). -/
def wayOf (w : Word) : BitVec 2 := w.extractLsb' 8 2

/-- RSV, bits 31:10 (30_encoding.md R70). -/
def rsvOf (w : Word) : BitVec 22 := w.extractLsb' 10 22

/-- `ROMRD(way)` of 30_encoding.md R73. -/
def romReadOfWay (way : BitVec 2) : Instr :=
  match way.toNat with
  | 0 => .romrdF
  | 1 => .romrdPf
  | 2 => .romrdR
  | _ => .romrdPr

/-- The mnemonic of an opcode other than 0x08 in the table of 30_encoding.md R72. -/
def instrOfOpc (opc : BitVec 8) : Decoded :=
  match opc.toNat with
  | 0x00 => .legal .nop
  | 0x01 => .legal .encode
  | 0x02 => .legal .decode
  | 0x03 => .legal .encgrp
  | 0x04 => .legal .enct1
  | 0x05 => .legal .enct2
  | 0x06 => .legal .decgrp
  | 0x07 => .legal .decfin
  | 0x09 => .legal .split6
  | 0x0A => .legal .join6
  | _ => .illegal

/-- `decode_cmd` of 30_encoding.md R73: OPC is looked at first, then RSV, then WAY. -/
def decodeCmd (w : Word) : Decoded :=
  if 0x0A < (opcOf w).toNat then .illegal
  else if rsvOf w ≠ 0 then .reserved
  else if opcOf w ≠ 0x08 ∧ wayOf w ≠ 0 then .reserved
  else if opcOf w = 0x08 then .legal (romReadOfWay (wayOf w))
  else instrOfOpc (opcOf w)

/-- A command word from its fields, RSV = 0 (30_encoding.md R70). -/
def cmdWord (way : BitVec 2) (opc : BitVec 8) : Word := 0#22 ++ way ++ opc

/-- The command word of each command, from the table of 30_encoding.md R72. -/
def encode : Instr → Word
  | .nop => cmdWord 0 0x00
  | .encode => cmdWord 0 0x01
  | .decode => cmdWord 0 0x02
  | .encgrp => cmdWord 0 0x03
  | .enct1 => cmdWord 0 0x04
  | .enct2 => cmdWord 0 0x05
  | .decgrp => cmdWord 0 0x06
  | .decfin => cmdWord 0 0x07
  | .romrdF => cmdWord 0 0x08
  | .romrdPf => cmdWord 1 0x08
  | .romrdR => cmdWord 2 0x08
  | .romrdPr => cmdWord 3 0x08
  | .split6 => cmdWord 0 0x09
  | .join6 => cmdWord 0 0x0A

/-- The command word whose bits the opcode table gives as `w`, `nbits` of them: a command word is one 32-bit register
write (30_encoding.md R71), so bit 0 of the table is bit 0 of CMD and the bits from `nbits` up are 0. -/
def tableWord (nbits w : Nat) : Word := BitVec.ofNat 32 (w % 2 ^ nbits)

/-- What the decoder reads from the table's word; none where it rejects, and where more than 32 bits are given
(no command is longer: 30_encoding.md R71). -/
def decodeTableWord (nbits w : Nat) : Option Instr :=
  if nbits ≤ 32 then
    match decodeCmd (tableWord nbits w) with
    | .legal i => some i
    | .illegal => none
    | .reserved => none
  else none

end Sys2Proof
end

