-- ==== Sys2Proof/Config.lean ====
section
/-! DEFINITION. What an implementation fixes and the spec leaves OPEN (00_scope.md R6), and the values the spec calls
a draw: constants without a body, so that nothing proved can rest on a value of theirs. -/

namespace Sys2Proof

/-- `MEM_SIZE` - 1, the last buffer-memory address (00_scope.md R6: `1 <= MEM_SIZE <= 2^32`, so the last address is any
32-bit value). It is only what `State.reset` starts with: the machine reads `State.lastAddr` (log 1). -/
opaque Config.lastAddr : Word

/-- `REV_INVALID` (43_lookup_rom.md R145): what REVERSE holds at a non-alphabet byte. Read at no other byte. -/
opaque Config.revInvalid : Byte → BitVec 6

/-- `PREV_INVALID` (43_lookup_rom.md R147): what PAIR_REVERSE holds at an index with a non-alphabet byte,
independent of `REV_INVALID`. Read at no other index. -/
opaque Config.prevInvalid : BitVec 16 → BitVec 12

/-- The content of each buffer-memory byte at power-up, "a draw fixed at power-up, stable until written"
(70_reset_and_hazards.md R201); log 2. -/
opaque Config.powerUpByte : Nat → Byte

/-- The `n`-th free word: a read of DOUT or RLEN while BUSY (10_state.md R38), RLEN after a hazard (R210); log 3. -/
opaque Config.drawWord : Nat → Word

/-- The `n`-th free byte: a host read in a running command's write region (20_memory.md R61), and the write region
after a hazard (R210) or an abort (R202); log 3. -/
opaque Config.drawByte : Nat → Byte

end Sys2Proof
end

