-- ==== Sys2Proof/Machine/Input.lean ====
section
/-! DEFINITION. What can happen to the block from outside, as plain data: the host operations of 30_encoding.md R78
and its pseudo-instructions (R79), the reset line (70_reset_and_hazards.md R200), and the block's turn (40_control.md
R95). `State.inputs` is a list of these (log 4). -/

namespace Sys2Proof.Machine

/-- The registers of the map of 10_state.md R21, by name. -/
inductive Reg where
  | id | cmd | status | irqen | src | dst | len | din | dout | rlen
  /-- Word indices 10 to 15 (10_state.md R36). -/
  | reserved
  deriving DecidableEq, Repr

/-- The four host operations (30_encoding.md R78; 40_control.md R95). A register is given by its word index, so that
the reserved indices can be reached too (10_state.md R21). -/
inductive HostOp where
  /-- `RD`: a register read. -/
  | rd (idx : Fin 16)
  /-- `WR`: a register write. -/
  | wr (idx : Fin 16) (v : Word)
  /-- `MR`: read `n` bytes of buffer memory from `a`. -/
  | mr (a : Word) (n : Nat)
  /-- `MW`: write the bytes to buffer memory from `a` upward. -/
  | mw (a : Word) (bytes : List Byte)
  deriving DecidableEq, Repr

/-- One thing that happens next. -/
inductive Input where
  /-- The host takes a step. -/
  | host (op : HostOp)
  /-- The block takes its step: the pending command completes, if there is one (40_control.md R91). -/
  | turn
  /-- `rst` is asserted (70_reset_and_hazards.md R200). -/
  | rstAssert
  /-- `rst` is released. -/
  | rstRelease
  deriving DecidableEq, Repr

/-- What the host got by its last read. -/
inductive Reply where
  /-- Nothing has been read yet. -/
  | nothing
  /-- A register read's 32 bits (10_state.md R21). -/
  | word (w : Word)
  /-- A memory read's bytes, the lowest address first (20_memory.md R54). -/
  | bytes (bs : List Byte)
  deriving DecidableEq, Repr

/-- The pseudo-instructions of 30_encoding.md R79. `polls` is how often the polling loop of `WAIT` reads STATUS before
the block completes: it depends on LATENCY and any number may stand there (70_reset_and_hazards.md R221). -/
inductive Pseudo where
  | issue (i : Instr)
  | wait (polls : Nat)
  | run (i : Instr) (polls : Nat)
  | clear
  | enc (src dst n : Word) (polls : Nat)
  | dec (buf n : Word) (polls : Nat)
  | op (i : Instr) (din : Word) (polls : Nat)
  deriving DecidableEq, Repr

end Sys2Proof.Machine
end

