-- ==== Sys2Proof/Machine/State.lean ====
section
/-! DEFINITION. The state of the block (10_state.md R45) as plain data, the reasons a step can stop, and the state
after reset (10_state.md R44). -/

namespace Sys2Proof.Machine

/-- The bytes of buffer memory written since power-up, as (address, byte) pairs with strictly rising addresses. An
address that is not listed holds what `Config.powerUpByte` names (log 2). -/
abbrev Memory := List Host.Cell

/-- What the list itself says of an unlisted address: no value, so no listed byte equals it (log 2). -/
def Memory.unlisted : Option Byte := none

/-- The canonical form: addresses strictly rising, and no entry equal to what an unlisted address holds. -/
def Memory.wf (m : Memory) : Bool :=
  decide (m.Pairwise fun c d => c.1 < d.1) && m.all fun c => some c.2 != Memory.unlisted

/-- The state of the block. The first fifteen fields are the spec's; `lastAddr` is its parameter MEM_SIZE - 1; the
others are the model's own (INVENTORY.md, "State"). -/
structure State where
  /-- CMD: the word most recently accepted (10_state.md R23); the pending command while `busy`. -/
  cmd : Word
  /-- STATUS.BUSY (10_state.md R25). -/
  busy : Bool
  /-- STATUS.DONE (10_state.md R26). -/
  done : Bool
  /-- STATUS.ERR (10_state.md R27). -/
  err : Bool
  /-- STATUS.WBUSY (10_state.md R28). -/
  wbusy : Bool
  /-- STATUS.ERRCODE (10_state.md R27). -/
  errcode : BitVec 4
  /-- IRQEN.DONE_IE (10_state.md R29). -/
  doneIe : Bool
  /-- SRC (10_state.md R30). -/
  src : Word
  /-- DST (10_state.md R31). -/
  dst : Word
  /-- LEN (10_state.md R32). -/
  len : Word
  /-- DIN (10_state.md R33). -/
  din : Word
  /-- DOUT (10_state.md R34). -/
  dout : Word
  /-- RLEN (10_state.md R35). -/
  rlen : Word
  /-- The buffer memory (20_memory.md R50). -/
  mem : Memory
  /-- The level of the reset input (70_reset_and_hazards.md R200). -/
  rst : Bool
  /-- MEM_SIZE - 1 (00_scope.md R6); no step changes it (log 1). -/
  lastAddr : Word
  /-- The sticky model-only mark of 70_reset_and_hazards.md R210 (log 7). -/
  hazard : Bool
  /-- The pending command's regions were disturbed (70_reset_and_hazards.md R210; log 7). -/
  disturbed : Bool
  /-- How many free values have been drawn (log 3). -/
  draws : Nat
  /-- What the host, the block and the reset line do next, the next first (log 4). -/
  inputs : List Input
  /-- What the host's last read returned (log 5). -/
  reply : Reply
  deriving DecidableEq, Repr

/-- `MEM_SIZE`, 1 to 2^32 (00_scope.md R6). -/
def State.memSize (s : State) : Nat := s.lastAddr.toNat + 1

/-- The reasons a step stops with a fault. -/
inductive Fault where
  /-- The host reads or writes buffer memory at an address that does not exist (20_memory.md R50). Raised by the host
  operations MR and MW, by no command. Safe: the model stops where the spec says nothing (log 10). -/
  | hostAccessOutsideMemory
  deriving DecidableEq, Repr

/-- The reasons a step is refused. -/
inductive Refusal where
  /-- The command has no meaning in the model. Raised by no arm of this model. Safe. -/
  | notModelled (mnemonic : String)
  deriving DecidableEq, Repr

/-- The six errors a command can complete with (60_exceptions.md R180). -/
inductive CmdError where
  | illegal | reserved | range | overlap | badlen | index
  deriving DecidableEq, Repr

/-- The outcome of a step of this machine. -/
abbrev Outcome := Host.Outcome State Fault Refusal

/-- The machine right after reset (10_state.md R44, 70_reset_and_hazards.md R200): every register 0, no command
pending, `rst` released, memory as power-up left it (R201). -/
def State.reset : State where
  cmd := 0
  busy := false
  done := false
  err := false
  wbusy := false
  errcode := 0
  doneIe := false
  src := 0
  dst := 0
  len := 0
  din := 0
  dout := 0
  rlen := 0
  mem := []
  rst := false
  lastAddr := Config.lastAddr
  hazard := false
  disturbed := false
  draws := 0
  inputs := []
  reply := .nothing

end Sys2Proof.Machine
end

