-- ==== Sys2Proof/Machine/Operands.lean ====
section
/-! DEFINITION. The data formats of DIN and DOUT (30_encoding.md R74): the first element of a group is in the most
significant position used, ignored input bits are dropped, unused output bits are 0. -/

namespace Sys2Proof.Machine

/-- Three bytes, the first first (00_scope.md R12). -/
structure Bytes3 where
  b0 : Byte
  b1 : Byte
  b2 : Byte
  deriving DecidableEq, Repr

/-- Four characters, the first first (00_scope.md R12). -/
structure Chars4 where
  c0 : Byte
  c1 : Byte
  c2 : Byte
  c3 : Byte
  deriving DecidableEq, Repr

/-- Four 6-bit fields, the first first (44_bit_pack_unpack.md R162). -/
structure Fields4 where
  f0 : BitVec 6
  f1 : BitVec 6
  f2 : BitVec 6
  f3 : BitVec 6
  deriving DecidableEq, Repr

/-- The group as a byte stream (20_memory.md R54). -/
def Bytes3.toList (g : Bytes3) : List Byte := [g.b0, g.b1, g.b2]

/-- The group as a byte stream (20_memory.md R54). -/
def Chars4.toList (g : Chars4) : List Byte := [g.c0, g.c1, g.c2, g.c3]

/-- Format G3B on input: bits 31:24 are ignored. -/
def inG3B (w : Word) : Bytes3 := ⟨w.extractLsb' 16 8, w.extractLsb' 8 8, w.extractLsb' 0 8⟩

/-- Format G3B on output: bits 31:24 are 0. -/
def outG3B (g : Bytes3) : Word := 0#8 ++ g.b0 ++ g.b1 ++ g.b2

/-- Format G4C on input. -/
def inG4C (w : Word) : Chars4 := ⟨w.extractLsb' 24 8, w.extractLsb' 16 8, w.extractLsb' 8 8, w.extractLsb' 0 8⟩

/-- Format G4C on output. -/
def outG4C (g : Chars4) : Word := g.c0 ++ g.c1 ++ g.c2 ++ g.c3

/-- Format T1 on input: bits 31:8 are ignored. -/
def inT1 (w : Word) : Byte := w.extractLsb' 0 8

/-- Format T2 on input, `(b0, b1)`: bits 31:16 are ignored. -/
def inT2 (w : Word) : Byte × Byte := (w.extractLsb' 8 8, w.extractLsb' 0 8)

/-- Format F6X4 on input: bits 31:30, 23:22, 15:14 and 7:6 are ignored. -/
def inF6X4 (w : Word) : Fields4 :=
  ⟨w.extractLsb' 24 6, w.extractLsb' 16 6, w.extractLsb' 8 6, w.extractLsb' 0 6⟩

/-- Format F6X4 on output: bits 31:30, 23:22, 15:14 and 7:6 are 0. -/
def outF6X4 (f : Fields4) : Word :=
  f.f0.setWidth 8 ++ f.f1.setWidth 8 ++ f.f2.setWidth 8 ++ f.f3.setWidth 8

/-- Format IDX: the whole word is the index. -/
def inIDX (w : Word) : Nat := w.toNat

/-- Format ENT: the entry, zero-extended. -/
def outENT {n : Nat} (entry : BitVec n) : Word := entry.setWidth 32

end Sys2Proof.Machine
end

