-- ==== Sys2Proof/Machine/Flags.lean ====
section
/-! DEFINITION. STATUS and IRQEN (10_state.md R24 to R29) and the interrupt line (60_exceptions.md R187). The block's
only flags are BUSY, DONE, ERR, WBUSY and ERRCODE (R40). -/

namespace Sys2Proof.Machine

/-- The error code of 60_exceptions.md R180. -/
def CmdError.code : CmdError → BitVec 4
  | .illegal => 1
  | .reserved => 2
  | .range => 3
  | .overlap => 4
  | .badlen => 5
  | .index => 6

/-- What a read of STATUS returns (10_state.md R24): BUSY bit 0, DONE bit 1, ERR bit 2, WBUSY bit 3, ERRCODE bits 7:4,
the rest 0. -/
def State.statusWord (s : State) : Word :=
  0#24 ++ s.errcode ++ BitVec.ofBool s.wbusy ++ BitVec.ofBool s.err ++ BitVec.ofBool s.done ++ BitVec.ofBool s.busy

/-- A host write to STATUS (10_state.md R24 to R28): bits 1, 2 and 3 are write-1-to-clear, bit 2 clears ERR and
ERRCODE together, every other bit is ignored. -/
def State.writeStatus (s : State) (v : Word) : State :=
  { s with
    done := s.done && !v.getLsbD 1
    err := s.err && !v.getLsbD 2
    errcode := if v.getLsbD 2 then 0 else s.errcode
    wbusy := s.wbusy && !v.getLsbD 3 }

/-- What a read of IRQEN returns (10_state.md R29). -/
def State.irqenWord (s : State) : Word := 0#31 ++ BitVec.ofBool s.doneIe

/-- A host write to IRQEN: bit 0 is DONE_IE, the rest is ignored (10_state.md R29). -/
def State.writeIrqen (s : State) (v : Word) : State := { s with doneIe := v.getLsbD 0 }

/-- A host write is dropped because the block is busy (10_state.md R28, R37). -/
def State.setWbusy (s : State) : State := { s with wbusy := true }

/-- The flags at acceptance (40_control.md R90). -/
def State.flagsAccepted (s : State) : State := { s with done := false, err := false, errcode := 0, busy := true }

/-- The flags at completion (40_control.md R91). -/
def State.flagsCompleted (s : State) : State := { s with busy := false, done := true }

/-- The flags of an error (10_state.md R27). -/
def State.flagsError (s : State) (e : CmdError) : State := { s with err := true, errcode := e.code }

/-- The interrupt output `irq` (60_exceptions.md R187). -/
def State.irq (s : State) : Bool := s.done && s.doneIe

end Sys2Proof.Machine
end

