-- ==== Sys2Proof/Machine/Region.lean ====
section
/-! DEFINITION. Regions of buffer memory (20_memory.md R51), on unbounded natural numbers (00_scope.md R9). -/

namespace Sys2Proof.Machine

/-- `ceil_div(a, b)` (00_scope.md R9). -/
def ceilDiv (a b : Nat) : Nat := (a + b - 1) / b

/-- The length of the text of `n` bytes, `4 * ceil_div(n, 3)` (41_encoder.md R104). -/
def encodedLength (n : Nat) : Nat := 4 * ceilDiv n 3

/-- The region `[start, start + size)` (20_memory.md R51). -/
structure Region where
  start : Nat
  size : Nat
  deriving DecidableEq, Repr

/-- The region a command that touches no memory has (20_memory.md R58). -/
def Region.empty : Region := ⟨0, 0⟩

/-- The address lies in the region. -/
def Region.contains (r : Region) (a : Nat) : Bool := decide (r.start ≤ a) && decide (a < r.start + r.size)

/-- "In range when `n = 0` or `a + n <= MEM_SIZE`", computed without wrap-around (20_memory.md R51). -/
def Region.inRange (memSize : Nat) (r : Region) : Bool := r.size == 0 || decide (r.start + r.size ≤ memSize)

/-- Two regions overlap (20_memory.md R51): both are non-empty and each starts before the other ends. -/
def Region.overlaps (r q : Region) : Bool :=
  decide (0 < r.size) && decide (0 < q.size) && decide (r.start < q.start + q.size) && decide (q.start < r.start + r.size)

/-- The part of the region that lies inside the memory. -/
def Region.clip (memSize : Nat) (r : Region) : Region := ⟨r.start, min r.size (memSize - r.start)⟩

end Sys2Proof.Machine
end

