-- ==== Sys2Proof/Machine/Ops.lean ====
section
/-! DEFINITION. The named operations over memory and registers: byte access (20_memory.md R52), acceptance (40_control.md
R90), completion (R91), a completion with an error (R93), which is the block's only error mechanism (60_exceptions.md
R191), and reset of the registers (70_reset_and_hazards.md R200). -/

namespace Sys2Proof.Machine

/-! ## Memory -/

/-- The byte written last at an address, if any has been written. -/
def Memory.lookup : Memory → Nat → Option Byte
  | [], _ => Memory.unlisted
  | (a, v) :: rest, x => if a = x then some v else Memory.lookup rest x

/-- `MemRead(a, 1)`: the byte most recently written there (20_memory.md R50), or what power-up left (R201, log 2). -/
def Memory.read (m : Memory) (a : Nat) : Byte := (m.lookup a).getD (Config.powerUpByte a)

/-- `MemWrite(a, 1, v)`: changes only the byte addressed (20_memory.md R50, R52). -/
def Memory.write : Memory → Nat → Byte → Memory
  | [], x, v => [(x, v)]
  | (a, u) :: rest, x, v =>
    if x < a then (x, v) :: (a, u) :: rest
    else if x = a then (x, v) :: rest
    else (a, u) :: Memory.write rest x v

/-- The `n` bytes from `a` upward (20_memory.md R54). -/
def Memory.readBytes (m : Memory) (a : Nat) : Nat → List Byte
  | 0 => []
  | n + 1 => m.read a :: Memory.readBytes m (a + 1) n

/-- Writes the bytes from `a` upward, the first at `a` (20_memory.md R54). -/
def Memory.writeBytes (m : Memory) (a : Nat) : List Byte → Memory
  | [] => m
  | v :: vs => Memory.writeBytes (m.write a v) (a + 1) vs

/-- A byte of the buffer memory. -/
def State.readByte (s : State) (a : Nat) : Byte := s.mem.read a

/-- The bytes of a region, its first byte first. -/
def State.readRegion (s : State) (r : Region) : List Byte := s.mem.readBytes r.start r.size

/-- Writes bytes from `a` upward and nothing else. -/
def State.writeBytes (s : State) (a : Nat) (bs : List Byte) : State := { s with mem := s.mem.writeBytes a bs }

/-! ## Free values (log 3) -/

/-- `n` free bytes, the `base`-th first. -/
def freeBytes (base : Nat) : Nat → List Byte
  | 0 => []
  | n + 1 => Config.drawByte base :: freeBytes (base + 1) n

/-- Every byte of the region takes a free value of its own; nothing else changes but the counter. -/
def State.scramble (s : State) (r : Region) : State :=
  { s.writeBytes r.start (freeBytes s.draws r.size) with draws := s.draws + r.size }

/-! ## Acceptance, completion, error, reset -/

/-- `accept(w)` (40_control.md R90). Whatever disturbed an earlier command is over. -/
def State.accept (s : State) (w : Word) : State := { s.flagsAccepted with cmd := w, disturbed := false }

/-- The last two assignments of `complete()` (40_control.md R91): BUSY <- 0, DONE <- 1. -/
def State.finish (s : State) : State := s.flagsCompleted

/-- `raise CmdError(e)` and the completion that follows (40_control.md R91, R93): ERR, ERRCODE, RLEN <- 0, BUSY <- 0,
DONE <- 1, and no other change. -/
def State.raise (s : State) (e : CmdError) : State := { s.flagsError e with rlen := 0 }.finish

/-- The result of a command that writes DOUT alone (10_state.md R35), and its completion. -/
def State.finishDout (s : State) (v : Word) : State := { s with dout := v }.finish

/-- The result of a command that writes DOUT and RLEN (10_state.md R35), and its completion. -/
def State.finishDoutRlen (s : State) (v n : Word) : State := { s with dout := v, rlen := n }.finish

/-- The result of ENCODE and DECODE: the bytes written from `a` upward, RLEN their number, and the completion. -/
def State.finishBytes (s : State) (a : Nat) (bs : List Byte) : State :=
  { s.writeBytes a bs with rlen := BitVec.ofNat 32 bs.length }.finish

/-- Every register at its reset value and no command pending (70_reset_and_hazards.md R200, 10_state.md R44). The
buffer memory, the parameter and the model's marks stay. -/
def State.resetRegisters (s : State) : State :=
  { s with
    cmd := 0, busy := false, done := false, err := false, wbusy := false, errcode := 0, doneIe := false,
    src := 0, dst := 0, len := 0, din := 0, dout := 0, rlen := 0, disturbed := false }

end Sys2Proof.Machine
end

