-- ==== Sys2Proof/Machine/BitPack.lean ====
section
/-! DEFINITION. The bit packing unit (44_bit_pack_unpack.md): its functions by shifts and masks (R160 to R165) and its
two commands. -/

namespace Sys2Proof.Machine

/-- R160. -/
def pack24 (g : Bytes3) : BitVec 24 :=
  (g.b0.setWidth 24 <<< 16) ||| (g.b1.setWidth 24 <<< 8) ||| g.b2.setWidth 24

/-- R161. -/
def unpack24 (v : BitVec 24) : Bytes3 := ⟨v.extractLsb' 16 8, v.extractLsb' 8 8, v.extractLsb' 0 8⟩

/-- R162. -/
def split6 (v : BitVec 24) : Fields4 :=
  ⟨v.extractLsb' 18 6, v.extractLsb' 12 6, v.extractLsb' 6 6, v.extractLsb' 0 6⟩

/-- R163. -/
def join6 (f : Fields4) : BitVec 24 :=
  (f.f0.setWidth 24 <<< 18) ||| (f.f1.setWidth 24 <<< 12) ||| (f.f2.setWidth 24 <<< 6) ||| f.f3.setWidth 24

/-- R164, `(hi, lo)`. -/
def split12 (v : BitVec 24) : BitVec 12 × BitVec 12 := (v.extractLsb' 12 12, v.extractLsb' 0 12)

/-- R165. -/
def join12 (hi lo : BitVec 12) : BitVec 24 := (hi.setWidth 24 <<< 12) ||| lo.setWidth 24

/-- SPLIT6 (R166): `v = DIN[23:0]`. -/
def execSplit6 (s : State) : Outcome := .next (s.finishDout (outF6X4 (split6 (s.din.setWidth 24))))

/-- JOIN6 (R167). -/
def execJoin6 (s : State) : Outcome := .next (s.finishDout ((join6 (inF6X4 s.din)).setWidth 32))

end Sys2Proof.Machine
end

