-- ==== Sys2Proof/Machine/LookupRom.lean ====
section
/-! DEFINITION. The lookup ROM (43_lookup_rom.md): four read-only ways and the four commands that read them. Its
content is fixed (R148), so it is a definition and no field of the state. -/

namespace Sys2Proof.Machine

/-- The padding character `=` (00_scope.md R11, R13). -/
def padChar : Byte := 0x3D

/-- The 64 characters of the standard alphabet in index order, one row of the table of R142 for each sixteen. -/
def alphabet : List Byte :=
  [0x41, 0x42, 0x43, 0x44, 0x45, 0x46, 0x47, 0x48, 0x49, 0x4A, 0x4B, 0x4C, 0x4D, 0x4E, 0x4F, 0x50] ++
  [0x51, 0x52, 0x53, 0x54, 0x55, 0x56, 0x57, 0x58, 0x59, 0x5A, 0x61, 0x62, 0x63, 0x64, 0x65, 0x66] ++
  [0x67, 0x68, 0x69, 0x6A, 0x6B, 0x6C, 0x6D, 0x6E, 0x6F, 0x70, 0x71, 0x72, 0x73, 0x74, 0x75, 0x76] ++
  [0x77, 0x78, 0x79, 0x7A, 0x30, 0x31, 0x32, 0x33, 0x34, 0x35, 0x36, 0x37, 0x38, 0x39, 0x2B, 0x2F]

/-- FORWARD, way 0 (R140, R142). -/
def forward (v : BitVec 6) : Byte := alphabet.getD v.toNat 0

/-- PAIR_FORWARD, way 1 (R143): the first field is in `i[11:6]`, the first character in bits [15:8] (R141). -/
def pairForward (i : BitVec 12) : BitVec 16 :=
  ((forward (i.extractLsb' 6 6)).setWidth 16 <<< 8) ||| (forward (i.extractLsb' 0 6)).setWidth 16

/-- The value of an alphabet byte (R144), none at the 192 non-alphabet bytes (00_scope.md R13). -/
def alphaValue (c : Byte) : Option (BitVec 6) :=
  if 0x41 ≤ c.toNat ∧ c.toNat ≤ 0x5A then some (BitVec.ofNat 6 (c.toNat - 0x41))
  else if 0x61 ≤ c.toNat ∧ c.toNat ≤ 0x7A then some (BitVec.ofNat 6 (c.toNat - 0x61 + 26))
  else if 0x30 ≤ c.toNat ∧ c.toNat ≤ 0x39 then some (BitVec.ofNat 6 (c.toNat - 0x30 + 52))
  else if c = 0x2B then some 62
  else if c = 0x2F then some 63
  else none

/-- The byte is in `ALPHA` (00_scope.md R13). -/
def isAlpha (c : Byte) : Bool := (alphaValue c).isSome

/-- REVERSE, way 2 (R144, R145). -/
def reverse (c : Byte) : BitVec 6 := (alphaValue c).getD (Config.revInvalid c)

/-- `pidx(c0, c1)` (R141). -/
def pidx (c0 c1 : Byte) : BitVec 16 := (c0.setWidth 16 <<< 8) ||| c1.setWidth 16

/-- PAIR_REVERSE, way 3 (R146, R147). -/
def pairReverse (i : BitVec 16) : BitVec 12 :=
  match alphaValue (i.extractLsb' 8 8), alphaValue (i.extractLsb' 0 8) with
  | some v0, some v1 => (v0.setWidth 12 <<< 6) ||| v1.setWidth 12
  | _, _ => Config.prevInvalid i

/-- The template of the four commands (section 3): an index at or beyond the way's entry count is error INDEX and is
not masked; otherwise DOUT is the entry and RLEN stays. `entry` is the way's content, `w` its index width. -/
def State.romRead {n : Nat} (s : State) (w : Nat) (entry : BitVec w → BitVec n) : State :=
  if inIDX s.din < 2 ^ w then s.finishDout (outENT (entry (BitVec.ofNat w (inIDX s.din)))) else s.raise .index

/-- ROMRD.F (R149): 64 entries. -/
def execRomrdF (s : State) : Outcome := .next (s.romRead 6 forward)

/-- ROMRD.PF (R150): 4096 entries. -/
def execRomrdPf (s : State) : Outcome := .next (s.romRead 12 pairForward)

/-- ROMRD.R (R151): 256 entries. -/
def execRomrdR (s : State) : Outcome := .next (s.romRead 8 reverse)

/-- ROMRD.PR (R152): 65536 entries. -/
def execRomrdPr (s : State) : Outcome := .next (s.romRead 16 pairReverse)

end Sys2Proof.Machine
end

