-- ==== Sys2Proof/Machine/Decoder.lean ====
section
/-! DEFINITION. The decoder unit (42_decoder.md): its functions (R120 to R123), the reference order of the in-place pass
(R124) and its three commands. It validates nothing (R128). -/

namespace Sys2Proof.Machine

/-- `dec_group` (R120): two lookups in PAIR_REVERSE, no character inspected for padding. -/
def decGroup (g : Chars4) : Bytes3 :=
  unpack24 (join12 (pairReverse (pidx g.c0 g.c1)) (pairReverse (pidx g.c2 g.c3)))

/-- The number of valid bytes of the last group (R122): position 2 is inspected first, and position 3 only where
position 2 is not `=`. -/
def validCount (g : Chars4) : Nat := if g.c2 = padChar then 1 else if g.c3 = padChar then 2 else 3

/-- The three bytes of the last group before they are cut to the valid ones (R122): four lookups in REVERSE. -/
def decFinalBytes (g : Chars4) : Bytes3 :=
  unpack24 (join6 ⟨reverse g.c0, reverse g.c1, reverse g.c2, reverse g.c3⟩)

/-- The bytes `dec_final` returns (R122). -/
def decFinal (g : Chars4) : List Byte := (decFinalBytes g).toList.take (validCount g)

/-- `decode(T)` (R123): every group but the last by `dec_group`, the last by `dec_final`. It is called for whole groups
only (R125). -/
def decodeChars : List Byte → List Byte
  | [c0, c1, c2, c3] => decFinal ⟨c0, c1, c2, c3⟩
  | c0 :: c1 :: c2 :: c3 :: rest => (decGroup ⟨c0, c1, c2, c3⟩).toList ++ decodeChars rest
  | _ => []

/-- The four characters at `a .. a+3`. -/
def Memory.readChars4 (m : Memory) (a : Nat) : Chars4 := ⟨m.read a, m.read (a + 1), m.read (a + 2), m.read (a + 3)⟩

/-- The reference order of R124: for each group the four reads at the read cursor `rd`, then the writes of its bytes at
the write cursor `wr`. It returns the memory and the final write cursor. The block's cursors are hidden (10_state.md
R43): DECODE is defined by `decodeChars`, and a statement says that the two agree. -/
def decodeInPlace (m : Memory) (rd wr : Nat) : Nat → Memory × Nat
  | 0 => (m, wr)
  | 1 => (m.writeBytes wr (decFinal (m.readChars4 rd)), wr + validCount (m.readChars4 rd))
  | n + 2 => decodeInPlace (m.writeBytes wr (decGroup (m.readChars4 rd)).toList) (rd + 4) (wr + 3) (n + 1)

/-- DECODE's region `[SRC, SRC+LEN)` (R125). -/
def State.decodeIn (s : State) : Region := ⟨s.src.toNat, s.len.toNat⟩

/-- The checks of DECODE in their order (R125, 60_exceptions.md R188): RANGE, then the short input, which is no error,
then BADLEN. -/
def State.decodeCheck (s : State) : Option CmdError :=
  if !(s.decodeIn.inRange s.memSize) then some .range
  else if s.len.toNat < 4 then none
  else if s.len.toNat % 4 ≠ 0 then some .badlen
  else none

/-- DECODE (R125). A text shorter than 4 has the empty result (R121). -/
def execDecode (s : State) : Outcome :=
  match s.decodeCheck with
  | some e => .next (s.raise e)
  | none => .next (s.finishBytes s.decodeIn.start (decodeChars (s.readRegion s.decodeIn)))

/-- DECGRP (R126). -/
def execDecgrp (s : State) : Outcome := .next (s.finishDoutRlen (outG3B (decGroup (inG4C s.din))) 3)

/-- The bytes beyond the valid ones read 0 (R127). -/
def zeroBeyond (valid : Nat) (g : Bytes3) : Bytes3 := ⟨g.b0, if 2 ≤ valid then g.b1 else 0, if valid = 3 then g.b2 else 0⟩

/-- DECFIN (R127). -/
def execDecfin (s : State) : Outcome :=
  let g := inG4C s.din
  .next (s.finishDoutRlen (outG3B (zeroBeyond (validCount g) (decFinalBytes g))) (BitVec.ofNat 32 (validCount g)))

end Sys2Proof.Machine
end

