-- ==== Sys2Proof/Machine/Encoder.lean ====
section
/-! DEFINITION. The encoder unit (41_encoder.md): its functions (R100 to R103) and its four commands. -/

namespace Sys2Proof.Machine

/-- `enc_group` (R100): two lookups in PAIR_FORWARD. -/
def encGroup (g : Bytes3) : Chars4 :=
  let halves := split12 (pack24 g)
  let p := pairForward halves.1
  let q := pairForward halves.2
  ⟨p.extractLsb' 8 8, p.extractLsb' 0 8, q.extractLsb' 8 8, q.extractLsb' 0 8⟩

/-- `enc_tail1` (R101). -/
def encTail1 (b0 : Byte) : Chars4 :=
  ⟨forward ((b0 >>> 2).setWidth 6), forward (((b0 &&& 0x3) <<< 4).setWidth 6), padChar, padChar⟩

/-- `enc_tail2` (R102). -/
def encTail2 (b0 b1 : Byte) : Chars4 :=
  ⟨forward ((b0 >>> 2).setWidth 6), forward ((((b0 &&& 0x3) <<< 4) ||| (b1 >>> 4)).setWidth 6),
    forward (((b1 &&& 0xF) <<< 2).setWidth 6), padChar⟩

/-- `encode(B)` (R103): full groups of three bytes, then the tail. -/
def encodeBytes : List Byte → List Byte
  | [] => []
  | [b0] => (encTail1 b0).toList
  | [b0, b1] => (encTail2 b0 b1).toList
  | b0 :: b1 :: b2 :: rest => (encGroup ⟨b0, b1, b2⟩).toList ++ encodeBytes rest

/-- ENCODE's input region `[SRC, SRC+LEN)` (R104). -/
def State.encodeIn (s : State) : Region := ⟨s.src.toNat, s.len.toNat⟩

/-- ENCODE's output region `[DST, DST+4*ceil_div(LEN,3))` (R104). -/
def State.encodeOut (s : State) : Region := ⟨s.dst.toNat, encodedLength s.len.toNat⟩

/-- The checks of ENCODE in their order (R104, 60_exceptions.md R188): RANGE, then OVERLAP. -/
def State.encodeCheck (s : State) : Option CmdError :=
  if !(s.encodeIn.inRange s.memSize && s.encodeOut.inRange s.memSize) then some .range
  else if s.encodeIn.overlaps s.encodeOut then some .overlap
  else none

/-- ENCODE (R104). -/
def execEncode (s : State) : Outcome :=
  match s.encodeCheck with
  | some e => .next (s.raise e)
  | none => .next (s.finishBytes s.encodeOut.start (encodeBytes (s.readRegion s.encodeIn)))

/-- ENCGRP (R105). -/
def execEncgrp (s : State) : Outcome := .next (s.finishDoutRlen (outG4C (encGroup (inG3B s.din))) 4)

/-- ENCT1 (R106). -/
def execEnct1 (s : State) : Outcome := .next (s.finishDoutRlen (outG4C (encTail1 (inT1 s.din))) 4)

/-- ENCT2 (R107). -/
def execEnct2 (s : State) : Outcome :=
  .next (s.finishDoutRlen (outG4C (encTail2 (inT2 s.din).1 (inT2 s.din).2)) 4)

end Sys2Proof.Machine
end

