-- ==== Sys2Proof/Machine/Control.lean ====
section
/-! DEFINITION. NOP (40_control.md R94), the regions of the pending command (20_memory.md R58), what a hazard does at its
completion (70_reset_and_hazards.md R210), and reset (R200 to R202). -/

namespace Sys2Proof.Machine

/-- NOP (40_control.md R94): "does nothing but complete". -/
def execNop (s : State) : Outcome := .next s.finish

/-- The pending command is this one. -/
def State.pending (s : State) (i : Instr) : Bool := s.busy && decide (decodeCmd s.cmd = .legal i)

/-- The read region of the pending command (20_memory.md R58). -/
def State.pendingReads (s : State) : Region :=
  if s.pending .encode then s.encodeIn
  else if s.pending .decode then s.decodeIn
  else .empty

/-- How many bytes the pending DECODE writes, `RLEN` of its completion (20_memory.md R58): 0 on an error and on a short
input, else 3*LEN/4 less the padding of the last group (42_decoder.md R129). Once the command is disturbed its last group
is not known and the bound 3*LEN/4 is taken (log 8). -/
def State.decodeOutSize (s : State) : Nat :=
  if s.decodeCheck.isSome then 0
  else if s.len.toNat < 4 then 0
  else if s.disturbed then 3 * s.len.toNat / 4
  else 3 * s.len.toNat / 4 - (3 - validCount (s.mem.readChars4 (s.src.toNat + s.len.toNat - 4)))

/-- The write region of the pending command (20_memory.md R58), as the table there has it: ENCODE's is its output region
also where its checks will fail (log 9). -/
def State.pendingWrites (s : State) : Region :=
  if s.pending .encode then s.encodeOut
  else if s.pending .decode then ⟨s.src.toNat, s.decodeOutSize⟩
  else .empty

/-- The effect of a hazard at the completion (70_reset_and_hazards.md R210): the command `s` held pending has completed as
`t`, but every byte of its write region and RLEN take free values. -/
def State.afterHazard (s t : State) : State :=
  let u := t.scramble (s.pendingWrites.clip s.memSize)
  { u with rlen := Config.drawWord u.draws, draws := u.draws + 1, disturbed := false }

/-- The completion `r` of the command that `s` held pending: as it is where no hazard disturbed it (40_control.md R91),
else with the effect of the hazard. -/
def State.settle (s : State) (r : Outcome) : Outcome :=
  if s.disturbed then
    match r with
    | .next t => .next (s.afterHazard t)
    | .fault f => .fault f
    | .refused x => .refused x
  else r

/-- What a reset leaves open of a pending command's memory (70_reset_and_hazards.md R202): ENCODE's output region if its
checks would pass, DECODE's whole region if its checks would, nothing for any other command (log 9). -/
def State.abortRegion (s : State) : Region :=
  if s.pending .encode && s.encodeCheck.isNone then s.encodeOut
  else if s.pending .decode && s.decodeCheck.isNone then s.decodeIn
  else .empty

/-- `rst` is asserted (70_reset_and_hazards.md R200 to R202): a pending command is aborted, every register takes its
reset value, and the buffer memory stays but for what the aborted command leaves open. -/
def State.assertReset (s : State) : State := { (s.scramble s.abortRegion).resetRegisters with rst := true }

/-- `rst` is released: the block is idle and accepts the next CMD write (70_reset_and_hazards.md R200). -/
def State.releaseReset (s : State) : State := { s with rst := false }

end Sys2Proof.Machine
end

