-- ==== Sys2Proof/Machine/HostPort.lean ====
section
/-! DEFINITION. The host's four kinds of step (40_control.md R95): the register port (10_state.md R21 to R38) and the
host's access to the buffer memory (20_memory.md R59 to R61). -/

namespace Sys2Proof.Machine

/-- The word index of a register (10_state.md R21). -/
def Reg.index : Reg → Fin 16
  | .id => 0
  | .cmd => 1
  | .status => 2
  | .irqen => 3
  | .src => 4
  | .dst => 5
  | .len => 6
  | .din => 7
  | .dout => 8
  | .rlen => 9
  | .reserved => 10

/-- The register at a word index (10_state.md R21, R36). -/
def Reg.ofIndex (i : Fin 16) : Reg :=
  match i.val with
  | 0 => .id
  | 1 => .cmd
  | 2 => .status
  | 3 => .irqen
  | 4 => .src
  | 5 => .dst
  | 6 => .len
  | 7 => .din
  | 8 => .dout
  | 9 => .rlen
  | _ => .reserved

/-- What ID always reads: `"B64"` and the command-set version 1 (10_state.md R22). -/
def idWord : Word := 0x42363401

/-- What a register holds as the host reads it (10_state.md R22 to R36). -/
def State.regValue (s : State) : Reg → Word
  | .id => idWord
  | .cmd => s.cmd
  | .status => s.statusWord
  | .irqen => s.irqenWord
  | .src => s.src
  | .dst => s.dst
  | .len => s.len
  | .din => s.din
  | .dout => s.dout
  | .rlen => s.rlen
  | .reserved => 0

/-- The registers whose value is open while BUSY = 1 (10_state.md R38). -/
def Reg.openWhileBusy : Reg → Bool
  | .dout | .rlen => true
  | .id | .cmd | .status | .irqen | .src | .dst | .len | .din | .reserved => false

/-- RD. While `rst` is asserted it returns 0 (70_reset_and_hazards.md R200); of DOUT and RLEN while BUSY = 1, a free word,
a fresh one at each read (10_state.md R38); else the register. -/
def State.hostRead (s : State) (r : Reg) : State :=
  if s.rst then { s with reply := .word 0 }
  else if s.busy && r.openWhileBusy then { s with reply := .word (Config.drawWord s.draws), draws := s.draws + 1 }
  else { s with reply := .word (s.regValue r) }

/-- A write to CMD, SRC, DST, LEN or DIN: ignored while BUSY = 1, and WBUSY records it (10_state.md R37). -/
def State.unlessBusy (s : State) (written : State) : State := if s.busy then s.setWbusy else written

/-- WR. Ignored while `rst` is asserted (70_reset_and_hazards.md R200); a write to CMD starts a command (10_state.md R23);
ID, DOUT, RLEN and the reserved indices ignore writes in every state (R22, R34 to R36). -/
def State.hostWrite (s : State) (r : Reg) (v : Word) : State :=
  if s.rst then s
  else match r with
    | .cmd => s.unlessBusy (s.accept v)
    | .status => s.writeStatus v
    | .irqen => s.writeIrqen v
    | .src => s.unlessBusy { s with src := v }
    | .dst => s.unlessBusy { s with dst := v }
    | .len => s.unlessBusy { s with len := v }
    | .din => s.unlessBusy { s with din := v }
    | .id => s
    | .dout => s
    | .rlen => s
    | .reserved => s

/-- The bytes a host memory read returns, from `a` upward: a byte of the running command's write region `w` is a free
byte (20_memory.md R61), any other is the byte of the memory (R50). `base` counts the draws. -/
def State.observe (s : State) (w : Region) (a base : Nat) : Nat → List Byte
  | 0 => []
  | n + 1 => (if w.contains a then Config.drawByte base else s.readByte a) :: s.observe w (a + 1) (base + 1) n

/-- MR of `n` bytes from `a`: a read has no side effect on the memory (20_memory.md R50). -/
def State.hostMemRead (s : State) (a n : Nat) : State :=
  { s with reply := .bytes (s.observe s.pendingWrites a s.draws n), draws := s.draws + n }

/-- The host write of a region disturbs the pending command (70_reset_and_hazards.md R210): it touches a byte of the
command's read or write region. -/
def State.disturbs (s : State) (r : Region) : Bool := r.overlaps s.pendingReads || r.overlaps s.pendingWrites

/-- MW of bytes from `a`: plain storage (20_memory.md R50); in a region of the pending command it is a hazard, which the
sticky mark records (R61, 70_reset_and_hazards.md R210). -/
def State.hostMemWrite (s : State) (a : Nat) (bs : List Byte) : State :=
  { s.writeBytes a bs with
    hazard := s.hazard || s.disturbs ⟨a, bs.length⟩
    disturbed := s.disturbed || s.disturbs ⟨a, bs.length⟩ }

/-- One host operation (30_encoding.md R78). -/
def hostStep (s : State) : HostOp → Outcome
  | .rd idx => .next (s.hostRead (Reg.ofIndex idx))
  | .wr idx v => .next (s.hostWrite (Reg.ofIndex idx) v)
  | .mr a n =>
    if Region.inRange s.memSize ⟨a.toNat, n⟩ then .next (s.hostMemRead a.toNat n) else .fault .hostAccessOutsideMemory
  | .mw a bs =>
    if Region.inRange s.memSize ⟨a.toNat, bs.length⟩ then .next (s.hostMemWrite a.toNat bs)
    else .fault .hostAccessOutsideMemory

/-! ## Host programs (30_encoding.md R78, R79) -/

/-- `WR <reg>, <imm32>` as an input. -/
def wrReg (r : Reg) (v : Word) : Input := .host (.wr r.index v)

/-- `RD <reg>` as an input. -/
def rdReg (r : Reg) : Input := .host (.rd r.index)

/-- `WAIT`: `polls` reads of STATUS that see DONE = 0, the block's turn, and the read that sees DONE = 1. -/
def waitInputs (polls : Nat) : List Input := List.replicate polls (rdReg .status) ++ [.turn, rdReg .status]

/-- `ISSUE`. -/
def issueInput (i : Instr) : Input := wrReg .cmd (encode i)

/-- The expansions of 30_encoding.md R79. -/
def Pseudo.expand : Pseudo → List Input
  | .issue i => [issueInput i]
  | .wait polls => waitInputs polls
  | .run i polls => issueInput i :: waitInputs polls
  | .clear => [wrReg .status 0x0000000E]
  | .enc src dst n polls => wrReg .src src :: wrReg .dst dst :: wrReg .len n :: issueInput .encode :: waitInputs polls
  | .dec buf n polls => wrReg .src buf :: wrReg .len n :: issueInput .decode :: waitInputs polls
  | .op i din polls => wrReg .din din :: issueInput i :: waitInputs polls

end Sys2Proof.Machine
end

