-- ==== Sys2Proof/Machine/Dispatch.lean ====
section
/-! DEFINITION. One arm per command: the completion of that command as one transition (40_control.md R91). -/

namespace Sys2Proof.Machine

def exec (i : Instr) (s : State) : Host.Outcome State Fault Refusal :=
  match i with
  | .nop => Sys2Proof.Machine.execNop s
  | .encode => Sys2Proof.Machine.execEncode s
  | .decode => Sys2Proof.Machine.execDecode s
  | .encgrp => Sys2Proof.Machine.execEncgrp s
  | .enct1 => Sys2Proof.Machine.execEnct1 s
  | .enct2 => Sys2Proof.Machine.execEnct2 s
  | .decgrp => Sys2Proof.Machine.execDecgrp s
  | .decfin => Sys2Proof.Machine.execDecfin s
  | .romrdF => Sys2Proof.Machine.execRomrdF s
  | .romrdPf => Sys2Proof.Machine.execRomrdPf s
  | .romrdR => Sys2Proof.Machine.execRomrdR s
  | .romrdPr => Sys2Proof.Machine.execRomrdPr s
  | .split6 => Sys2Proof.Machine.execSplit6 s
  | .join6 => Sys2Proof.Machine.execJoin6 s

end Sys2Proof.Machine
end

