-- ==== Sys2Proof/Machine/Step.lean ====
section
/-! DEFINITION. One step of the whole (40_control.md R95): the host, the block or the reset line acts, as
`State.inputs` says; when nothing is left there, a pending command completes (R92, 70_reset_and_hazards.md R221) and an
idle block stays as it is (log 4). -/

namespace Sys2Proof.Machine

/-- `complete()` (40_control.md R91): the command word is decoded and executed; ILLEGAL and RESERVED are completions
with an error (60_exceptions.md R181, R182). -/
def complete (s : State) : Outcome :=
  match decodeCmd s.cmd with
  | .legal i => s.settle (exec i s)
  | .illegal => s.settle (.next (s.raise .illegal))
  | .reserved => s.settle (.next (s.raise .reserved))

/-- The block's step, enabled only while BUSY = 1 (40_control.md R95). -/
def blockStep (s : State) : Outcome := if s.busy then complete s else .next s

/-- One step. -/
def step (s : State) : Host.Outcome State Fault Refusal :=
  match s.inputs with
  | [] => blockStep s
  | .turn :: rest => blockStep { s with inputs := rest }
  | .host op :: rest => hostStep { s with inputs := rest } op
  | .rstAssert :: rest => .next (State.assertReset { s with inputs := rest })
  | .rstRelease :: rest => .next (State.releaseReset { s with inputs := rest })

/-- The machine fetches nothing (10_state.md R20): a command is the word the host wrote to CMD. So the word is accepted
(40_control.md R90), with `rst` released, and the block's turn is put in front of what happens next: the very next step
completes that command (log 11). -/
def State.withFetchWord (s : State) (nbits w : Nat) : State :=
  { s.accept (tableWord nbits w) with rst := false, inputs := .turn :: s.inputs }

end Sys2Proof.Machine
end

