-- ==== Sys2Proof/Safety.lean ====
section
/-! DEFINITION. The invariant of the block and what a claim takes as absent (70_reset_and_hazards.md R210). -/

namespace Sys2Proof.Machine

/-- Every listed address exists (20_memory.md R50). -/
def State.memInside (s : State) : Prop := ∀ c ∈ s.mem, c.1 < s.memSize

/-- Every register at its reset value (10_state.md R44). -/
def State.atReset (s : State) : Prop :=
  s.cmd = 0 ∧ s.busy = false ∧ s.done = false ∧ s.err = false ∧ s.wbusy = false ∧ s.errcode = 0 ∧ s.doneIe = false ∧
  s.src = 0 ∧ s.dst = 0 ∧ s.len = 0 ∧ s.din = 0 ∧ s.dout = 0 ∧ s.rlen = 0

/-- What holds of every state the block can be in: the memory is canonical and inside `[0, MEM_SIZE)`; while a command is
pending DONE, ERR and ERRCODE are 0 (40_control.md R90); ERR = 1 exactly when ERRCODE is one of 1 to 6 (10_state.md R27,
60_exceptions.md R180); while `rst` is asserted every register has its reset value (70_reset_and_hazards.md R200); only a
pending command is disturbed, and the hazard mark shows it (R210). -/
structure State.Inv (s : State) : Prop where
  memWf : s.mem.wf = true
  memInside : s.memInside
  busyFlags : s.busy = true → s.done = false ∧ s.err = false ∧ s.errcode = 0
  errCode : s.err = true ↔ s.errcode ≠ 0
  errCodeBound : s.errcode.toNat ≤ 6
  rstRegisters : s.rst = true → s.atReset
  disturbedPending : s.disturbed = true → s.busy = true ∧ s.hazard = true

/-- No hazard has happened: what the spec lets every claim take as given (70_reset_and_hazards.md R210). -/
def State.undisturbed (s : State) : Prop := s.hazard = false

end Sys2Proof.Machine
end

