-- ==== Sys2Proof/WellFormed.lean ====
section
/-! DEFINITION. The checks on terms. An `Instr` has no operand (30_encoding.md R76), so every `Instr` is well formed
by its type and there is nothing to check of it; the checks are on command words, host operations and
pseudo-instructions. -/

namespace Sys2Proof

/-- The command word is one of the fourteen (30_encoding.md R77). -/
def legalWord (w : Word) : Bool :=
  match decodeCmd w with
  | .legal _ => true
  | .illegal => false
  | .reserved => false

/-- The command reads DIN (30_encoding.md R75). -/
def Instr.readsDin : Instr → Bool
  | .nop | .encode | .decode => false
  | .encgrp | .enct1 | .enct2 | .decgrp | .decfin | .romrdF | .romrdPf | .romrdR | .romrdPr | .split6 | .join6 => true

/-- The bytes an operation names exist: every byte of MR and MW lies inside the buffer memory (20_memory.md R50). -/
def Machine.HostOp.wellFormed (memSize : Nat) : Machine.HostOp → Bool
  | .rd _ => true
  | .wr _ _ => true
  | .mr a n => Machine.Region.inRange memSize ⟨a.toNat, n⟩
  | .mw a bs => Machine.Region.inRange memSize ⟨a.toNat, bs.length⟩

/-- An input is well formed if the host operation it holds is. -/
def Machine.Input.wellFormed (memSize : Nat) : Machine.Input → Bool
  | .host op => op.wellFormed memSize
  | .turn => true
  | .rstAssert => true
  | .rstRelease => true

/-- `OP` stands only for a command that reads DIN (30_encoding.md R79). -/
def Machine.Pseudo.wellFormed : Machine.Pseudo → Bool
  | .op i _ _ => i.readsDin
  | .issue _ | .wait _ | .run _ _ | .clear | .enc _ _ _ _ | .dec _ _ _ => true

end Sys2Proof
end

