-- ==== Sys2Proof/Certificates/Slice0/Obligations.lean ====
section
/-! DEFINITION. What is claimed of the block, rule by rule of spec/, for the provers. -/

open Sys2Proof Sys2Proof.Machine

/-! ## The command encoding (30_encoding.md) -/

/-- Three words written out bit by bit from the fields of R70: ENCODE, ROMRD.PR (WAY 3, OPC 0x08) and JOIN6. -/
def Obligations.WordsWrittenOutFromTheFieldsDecode : Prop :=
  decodeCmd 0b00000000000000000000000000000001#32 = .legal .encode ∧
  decodeCmd 0b00000000000000000000001100001000#32 = .legal .romrdPr ∧
  decodeCmd 0b00000000000000000000000000001010#32 = .legal .join6

/-- R72: the legal command words are exactly the fourteen of the opcode map, each matched on all 32 bits. -/
def Obligations.LegalWordsAreExactlyTheOpcodeMap : Prop :=
  ∀ (w : Word) (i : Instr), decodeCmd w = .legal i ↔ (w, i) ∈
    [(0x00000000#32, Instr.nop), (0x00000001#32, .encode), (0x00000002#32, .decode), (0x00000003#32, .encgrp),
     (0x00000004#32, .enct1), (0x00000005#32, .enct2), (0x00000006#32, .decgrp), (0x00000007#32, .decfin),
     (0x00000008#32, .romrdF), (0x00000108#32, .romrdPf), (0x00000208#32, .romrdR), (0x00000308#32, .romrdPr),
     (0x00000009#32, .split6), (0x0000000A#32, .join6)]

/-- Decoder and encoder agree in both directions, over all 2^32 words and every command. -/
def Obligations.DecodeAndEncodeAgree : Prop := ∀ (w : Word) (i : Instr), decodeCmd w = .legal i ↔ encode i = w

/-- R77: a word whose OPC is 0x0B to 0xFF is illegal whatever its other bits; one with a smaller OPC that is none of the
fourteen is reserved. -/
def Obligations.OtherWordsAreIllegalOrReserved : Prop :=
  ∀ w : Word,
    (decodeCmd w = .illegal ↔ 0x0B ≤ (w.extractLsb' 0 8).toNat) ∧
    (decodeCmd w = .reserved ↔ (w.extractLsb' 0 8).toNat ≤ 0x0A ∧
      (w.extractLsb' 10 22 ≠ 0 ∨ (w.extractLsb' 8 2 ≠ 0 ∧ w.extractLsb' 0 8 ≠ 0x08))) ∧
    (decodeCmd w = .reserved ↔ (w.extractLsb' 0 8).toNat ≤ 0x0A ∧ ∀ i : Instr, w ≠ encode i)

/-! ## Acceptance and completion (40_control.md, 60_exceptions.md) -/

/-- R90: a host write of any word to CMD while BUSY = 0 accepts it. `rst` is released (while it is asserted the write is
ignored: `ResetClearsEveryRegister`). Of the model's own mark `disturbed` (log 7) nothing is said. -/
def Obligations.CmdWriteWhileIdleIsAccepted : Prop :=
  ∀ (s : State) (w : Word) (rest : List Input),
    s.busy = false → s.rst = false → s.inputs = .host (.wr 1 w) :: rest →
    ∃ mark : Bool, step s = .next { s with
      inputs := rest, cmd := w, done := false, err := false, errcode := 0, busy := true, disturbed := mark }

/-- R37: while BUSY = 1 a host write to CMD, SRC, DST, LEN or DIN changes nothing but WBUSY, so the operands at the
completion are those at the acceptance: no step that leaves the command pending changes them. -/
def Obligations.WritesWhileBusyAreDroppedAndRecorded : Prop :=
  (∀ (s : State) (idx : Fin 16) (v : Word) (rest : List Input),
    s.busy = true → s.rst = false → idx ∈ [(1 : Fin 16), 4, 5, 6, 7] → s.inputs = .host (.wr idx v) :: rest →
    step s = .next { s with inputs := rest, wbusy := true }) ∧
  (∀ s t : State, s.busy = true → step s = .next t → t.busy = true →
    t.cmd = s.cmd ∧ t.src = s.src ∧ t.dst = s.dst ∧ t.len = s.len ∧ t.din = s.din)

/-- R91: the block's step while BUSY = 1 executes the command that CMD encodes, as one transition: `step` is `exec` of the
decoded command, on the state without the turn. That the pending command completes when nothing else is left to happen (the
second clause) is the model's choice of log 4, and the word the interface places (the third clause) that of log 11. -/
def Obligations.CompletionRunsTheDecodedCommand : Prop :=
  (∀ (s : State) (i : Instr) (rest : List Input),
    s.busy = true → s.disturbed = false → decodeCmd s.cmd = .legal i → s.inputs = .turn :: rest →
    step s = exec i { s with inputs := rest }) ∧
  (∀ (s : State) (i : Instr),
    s.busy = true → s.disturbed = false → decodeCmd s.cmd = .legal i → s.inputs = [] → step s = exec i s) ∧
  (∀ (s : State) (i : Instr),
    step (s.withFetchWord 32 (encode i).toNat) = exec i { s.accept (encode i) with rst := false })

/-- R181: a word whose OPC is above 0x0A completes with ILLEGAL, code 1, and does nothing else. -/
def Obligations.IllegalWordCompletesWithCodeOne : Prop :=
  ∀ (s : State) (rest : List Input),
    s.busy = true → s.disturbed = false → s.inputs = .turn :: rest → 0x0A < (s.cmd.extractLsb' 0 8).toNat →
    step s = .next { s with
      inputs := rest, err := true, errcode := 1, rlen := 0, busy := false, done := true }

/-- R182: a word whose OPC is at most 0x0A, but with a bit of RSV set, or of WAY with OPC other than 0x08, completes with
RESERVED, code 2, and does nothing else. -/
def Obligations.ReservedWordCompletesWithCodeTwo : Prop :=
  ∀ (s : State) (rest : List Input),
    s.busy = true → s.disturbed = false → s.inputs = .turn :: rest → (s.cmd.extractLsb' 0 8).toNat ≤ 0x0A →
    (s.cmd.extractLsb' 10 22 ≠ 0 ∨ (s.cmd.extractLsb' 8 2 ≠ 0 ∧ s.cmd.extractLsb' 0 8 ≠ 0x08)) →
    step s = .next { s with
      inputs := rest, err := true, errcode := 2, rlen := 0, busy := false, done := true }

/-- R93: a command that ends with an error, of whatever word, makes no change but ERR, ERRCODE, RLEN <- 0, BUSY <- 0 and
DONE <- 1: no memory byte, not DOUT. ERR is 0 while a command is pending (`EveryStepKeepsTheInvariant`), and a command that a
hazard has disturbed is R210's. The codes are those of R180. -/
def Obligations.CommandErrorChangesNothingElse : Prop :=
  ∀ (s t : State) (rest : List Input),
    s.busy = true → s.disturbed = false → s.err = false → s.inputs = .turn :: rest → step s = .next t → t.err = true →
    t = { s with inputs := rest, err := true, errcode := t.errcode, rlen := 0, busy := false, done := true } ∧
    1 ≤ t.errcode.toNat ∧ t.errcode.toNat ≤ 6

/-- The frame of all fourteen commands: each completes (BUSY = 0, DONE = 1) from every state, and leaves CMD, WBUSY, IRQEN,
the operand registers, `rst`, the parameter and the model's marks as they were; only ENCODE and DECODE write memory, and
only ENCGRP, ENCT1, ENCT2, DECGRP, DECFIN, ROMRD.*, SPLIT6 and JOIN6 write DOUT (10_state.md R35, 20_memory.md R58). -/
def Obligations.EveryCommandCompletesWithinItsFrame : Prop :=
  ∀ (i : Instr) (s : State), ∃ t, exec i s = .next t ∧ t.busy = false ∧ t.done = true ∧
    t.cmd = s.cmd ∧ t.wbusy = s.wbusy ∧ t.doneIe = s.doneIe ∧ t.src = s.src ∧ t.dst = s.dst ∧ t.len = s.len ∧
    t.din = s.din ∧ t.rst = s.rst ∧ t.lastAddr = s.lastAddr ∧ t.hazard = s.hazard ∧ t.disturbed = s.disturbed ∧
    t.draws = s.draws ∧ t.inputs = s.inputs ∧ t.reply = s.reply ∧
    (i ≠ .encode → i ≠ .decode → t.mem = s.mem) ∧
    (i.readsDin = false → t.dout = s.dout) ∧
    (i ∈ [Instr.nop, .romrdF, .romrdPf, .romrdR, .romrdPr, .split6, .join6] → s.err = false → t.err = false →
      t.rlen = s.rlen)

/-- R94: NOP does nothing but complete, and only the word 0 is NOP; issued while ERR = 1 it clears ERR and ERRCODE. -/
def Obligations.NopOnlyCompletes : Prop :=
  (∀ s : State, exec .nop s = .next { s with busy := false, done := true }) ∧
  (∀ w : Word, decodeCmd w = .legal .nop ↔ w = 0) ∧
  (∀ (s : State) (rest : List Input),
    s.busy = false → s.rst = false → s.inputs = .host (.wr 1 0) :: .turn :: rest →
    ∃ mark : Bool, Host.Core.run core 2 s = .next { s with
      inputs := rest, cmd := 0, busy := false, done := true, err := false, errcode := 0, disturbed := mark })

/-! ## The encoder (41_encoder.md) -/

/-- R105: ENCGRP writes the four characters of the four 6-bit fields of DIN[23:0], 4 to RLEN, and nothing else but the flags
of completion; DIN[31:24] plays no part. -/
def Obligations.EncgrpEncodesAFullGroup : Prop :=
  decodeCmd 0x00000003#32 = .legal .encgrp ∧
  ∀ s : State, exec .encgrp s = .next { s with
    dout := forward (s.din.extractLsb' 18 6) ++ forward (s.din.extractLsb' 12 6) ++
      forward (s.din.extractLsb' 6 6) ++ forward (s.din.extractLsb' 0 6)
    rlen := 4, busy := false, done := true }

/-- R106: ENCT1 writes the two characters of `b0 = DIN[7:0]` and `==`. -/
def Obligations.EnctOneEncodesAOneByteTail : Prop :=
  decodeCmd 0x00000004#32 = .legal .enct1 ∧
  ∀ s : State, exec .enct1 s = .next { s with
    dout := forward (s.din.extractLsb' 2 6) ++ forward (s.din.extractLsb' 0 2 ++ 0#4) ++ 0x3D3D#16
    rlen := 4, busy := false, done := true }

/-- R107: ENCT2 writes the three characters of `b0 = DIN[15:8]`, `b1 = DIN[7:0]` and `=`. -/
def Obligations.EnctTwoEncodesATwoByteTail : Prop :=
  decodeCmd 0x00000005#32 = .legal .enct2 ∧
  ∀ s : State, exec .enct2 s = .next { s with
    dout := forward (s.din.extractLsb' 10 6) ++ forward (s.din.extractLsb' 4 6) ++
      forward (s.din.extractLsb' 0 4 ++ 0#2) ++ 0x3D#8
    rlen := 4, busy := false, done := true }

/-- R104: ENCODE. RANGE where a region is not in the memory, else OVERLAP where the two overlap, else the text of the
input region stands at DST, RLEN is its length, and no other byte and no other register has changed. -/
def Obligations.EncodeCommandEncodesItsRegion : Prop :=
  decodeCmd 0x00000001#32 = .legal .encode ∧
  ∀ (s : State) (n m : Nat), n = s.len.toNat → m = 4 * ((n + 3 - 1) / 3) →
    (¬ ((n = 0 ∨ s.src.toNat + n ≤ s.memSize) ∧ (m = 0 ∨ s.dst.toNat + m ≤ s.memSize)) →
      exec .encode s = .next { s with err := true, errcode := 3, rlen := 0, busy := false, done := true }) ∧
    ((n = 0 ∨ s.src.toNat + n ≤ s.memSize) → (m = 0 ∨ s.dst.toNat + m ≤ s.memSize) →
      (0 < n ∧ 0 < m ∧ s.src.toNat < s.dst.toNat + m ∧ s.dst.toNat < s.src.toNat + n) →
      exec .encode s = .next { s with err := true, errcode := 4, rlen := 0, busy := false, done := true }) ∧
    ((n = 0 ∨ s.src.toNat + n ≤ s.memSize) → (m = 0 ∨ s.dst.toNat + m ≤ s.memSize) →
      ¬ (0 < n ∧ 0 < m ∧ s.src.toNat < s.dst.toNat + m ∧ s.dst.toNat < s.src.toNat + n) →
      ∃ mem' : Memory,
        exec .encode s = .next { s with
          mem := mem', rlen := BitVec.ofNat 32 m, busy := false, done := true } ∧
        m < 2 ^ 32 ∧
        mem'.readBytes s.encodeOut.start m = encodeBytes (s.mem.readBytes s.src.toNat n) ∧
        (∀ a, ¬ (s.encodeOut.start ≤ a ∧ a < s.encodeOut.start + m) → mem'.read a = s.mem.read a) ∧
        mem'.readBytes s.src.toNat n = s.mem.readBytes s.src.toNat n)

/-- R103: `encode(B)` is the groups `k = 0 .. n/3 - 1`, then the tail of `n mod 3` bytes. -/
def Obligations.EncodingIsGroupsThenTail : Prop :=
  ∀ bs : List Byte,
    encodeBytes bs =
      ((List.range (bs.length / 3)).flatMap fun k =>
        (encGroup ⟨bs.getD (3 * k) 0, bs.getD (3 * k + 1) 0, bs.getD (3 * k + 2) 0⟩).toList) ++
      (if bs.length % 3 = 1 then (encTail1 (bs.getD (3 * (bs.length / 3)) 0)).toList
       else if bs.length % 3 = 2 then
         (encTail2 (bs.getD (3 * (bs.length / 3)) 0) (bs.getD (3 * (bs.length / 3) + 1) 0)).toList
       else [])

/-- R108: the length law, of the function and of RLEN after ENCODE. -/
def Obligations.EncodeLengthLaw : Prop :=
  (∀ bs : List Byte, (encodeBytes bs).length = 4 * ceilDiv bs.length 3) ∧
  (∀ s t : State, s.err = false → exec .encode s = .next t → t.err = false →
    t.rlen.toNat = 4 * ceilDiv s.len.toNat 3)

/-- R109: `encode(B)` is characters of the alphabet followed by 0, 2 or 1 `=`, which is no character of the alphabet. -/
def Obligations.PaddingLaw : Prop :=
  isAlpha padChar = false ∧
  ∀ bs : List Byte, ∃ chars : List Byte,
    encodeBytes bs = chars ++
      List.replicate (if bs.length % 3 = 0 then 0 else if bs.length % 3 = 1 then 2 else 1) padChar ∧
    ∀ c ∈ chars, isAlpha c = true

/-- R110: two pair lookups give what four single lookups give, the tails' fields are the first fields of the group filled up
with zeros, and on the block SPLIT6 followed by four ROMRD.F reads gives the characters of ENCGRP. -/
def Obligations.PairPathAgreesWithSinglePath : Prop :=
  (∀ g : Bytes3, encGroup g =
    ⟨forward (split6 (pack24 g)).f0, forward (split6 (pack24 g)).f1, forward (split6 (pack24 g)).f2,
      forward (split6 (pack24 g)).f3⟩) ∧
  (∀ b0 : Byte, encTail1 b0 =
    ⟨forward (split6 (pack24 ⟨b0, 0, 0⟩)).f0, forward (split6 (pack24 ⟨b0, 0, 0⟩)).f1, padChar, padChar⟩) ∧
  (∀ b0 b1 : Byte, encTail2 b0 b1 =
    ⟨forward (split6 (pack24 ⟨b0, b1, 0⟩)).f0, forward (split6 (pack24 ⟨b0, b1, 0⟩)).f1,
      forward (split6 (pack24 ⟨b0, b1, 0⟩)).f2, padChar⟩) ∧
  (∀ s t u : State, exec .split6 s = .next t → exec .encgrp s = .next u → ∀ k, k < 4 →
    ∃ r, exec .romrdF { s with din := (t.dout.extractLsb' (8 * k) 8).setWidth 32 } = .next r ∧ r.err = s.err ∧
      r.dout = (u.dout.extractLsb' (8 * k) 8).setWidth 32)

/-! ## The decoder (42_decoder.md) -/

/-- R126: DECGRP writes the 24 bits of two PAIR_REVERSE entries, 3 to RLEN, and nothing else but the flags of completion;
`=` is not inspected. -/
def Obligations.DecgrpDecodesANonFinalGroup : Prop :=
  decodeCmd 0x00000006#32 = .legal .decgrp ∧
  ∀ s : State, exec .decgrp s = .next { s with
    dout := 0#8 ++ pairReverse (s.din.extractLsb' 16 16) ++ pairReverse (s.din.extractLsb' 0 16)
    rlen := 3, busy := false, done := true }

/-- R127: DECFIN decodes through REVERSE; the bytes beyond the valid ones read 0 and RLEN is their number. Position 3
counts only where position 2 is not `=`. -/
def Obligations.DecfinDecodesAFinalGroup : Prop :=
  decodeCmd 0x00000007#32 = .legal .decfin ∧
  ∀ (s : State) (v : BitVec 24),
    v = reverse (s.din.extractLsb' 24 8) ++ reverse (s.din.extractLsb' 16 8) ++ reverse (s.din.extractLsb' 8 8) ++
      reverse (s.din.extractLsb' 0 8) →
    (s.din.extractLsb' 8 8 = 0x3D#8 → exec .decfin s = .next { s with
      dout := 0#8 ++ v.extractLsb' 16 8 ++ 0#16, rlen := 1, busy := false, done := true }) ∧
    (s.din.extractLsb' 8 8 ≠ 0x3D#8 → s.din.extractLsb' 0 8 = 0x3D#8 → exec .decfin s = .next { s with
      dout := 0#8 ++ v.extractLsb' 8 16 ++ 0#8, rlen := 2, busy := false, done := true }) ∧
    (s.din.extractLsb' 8 8 ≠ 0x3D#8 → s.din.extractLsb' 0 8 ≠ 0x3D#8 → exec .decfin s = .next { s with
      dout := 0#8 ++ v, rlen := 3, busy := false, done := true })

/-- R121: a DECODE of fewer than four characters whose region is in range has the empty result and is no error. -/
def Obligations.ShortDecodeIsEmptyAndNoError : Prop :=
  ∀ s : State, s.len.toNat < 4 → (s.len.toNat = 0 ∨ s.src.toNat + s.len.toNat ≤ s.memSize) →
    exec .decode s = .next { s with rlen := 0, busy := false, done := true }

/-- R125: DECODE. RANGE where the region is not in the memory, then the empty result of a short text, then BADLEN, else the
decoded bytes stand from SRC upward, RLEN is their number, and no other byte and no other register has changed. -/
def Obligations.DecodeCommandDecodesInPlace : Prop :=
  decodeCmd 0x00000002#32 = .legal .decode ∧
  ∀ (s : State) (n : Nat) (out : List Byte), n = s.len.toNat → out = decodeChars (s.mem.readBytes s.src.toNat n) →
    (¬ (n = 0 ∨ s.src.toNat + n ≤ s.memSize) →
      exec .decode s = .next { s with err := true, errcode := 3, rlen := 0, busy := false, done := true }) ∧
    ((n = 0 ∨ s.src.toNat + n ≤ s.memSize) → n < 4 →
      exec .decode s = .next { s with rlen := 0, busy := false, done := true }) ∧
    ((n = 0 ∨ s.src.toNat + n ≤ s.memSize) → 4 ≤ n → n % 4 ≠ 0 →
      exec .decode s = .next { s with err := true, errcode := 5, rlen := 0, busy := false, done := true }) ∧
    ((n = 0 ∨ s.src.toNat + n ≤ s.memSize) → 4 ≤ n → n % 4 = 0 →
      ∃ mem' : Memory,
        exec .decode s = .next { s with
          mem := mem', rlen := BitVec.ofNat 32 out.length, busy := false, done := true } ∧
        out.length ≤ 3 * n / 4 ∧
        mem'.readBytes s.decodeIn.start out.length = out ∧
        (∀ a, ¬ (s.decodeIn.start ≤ a ∧ a < s.decodeIn.start + out.length) → mem'.read a = s.mem.read a))

/-- R123: `decode(T)` is the groups but the last through `dec_group`, then the last through `dec_final`: 3*(G-1) bytes and the
valid bytes of the last group. -/
def Obligations.DecodingIsGroupsThenFinalGroup : Prop :=
  ∀ (ts : List Byte) (g : Nat), 1 ≤ g → ts.length = 4 * g →
    decodeChars ts =
      ((List.range (g - 1)).flatMap fun k =>
        (decGroup ⟨ts.getD (4 * k) 0, ts.getD (4 * k + 1) 0, ts.getD (4 * k + 2) 0, ts.getD (4 * k + 3) 0⟩).toList) ++
      decFinal ⟨ts.getD (4 * g - 4) 0, ts.getD (4 * g - 3) 0, ts.getD (4 * g - 2) 0, ts.getD (4 * g - 1) 0⟩ ∧
    (decodeChars ts).length = 3 * (g - 1) +
      (if ts.getD (4 * g - 2) 0 = 0x3D#8 then 1 else if ts.getD (4 * g - 1) 0 = 0x3D#8 then 2 else 3)

/-- R129: RLEN after a DECODE of whole groups is 3*L/4 less the padding of the final group. -/
def Obligations.DecodeLengthLaw : Prop :=
  ∀ (s : State) (n : Nat), n = s.len.toNat → 4 ≤ n → n % 4 = 0 → s.src.toNat + n ≤ s.memSize →
    ∃ t, exec .decode s = .next t ∧
      t.rlen.toNat = 3 * n / 4 -
        (if s.mem.read (s.src.toNat + n - 2) = 0x3D#8 then 2
         else if s.mem.read (s.src.toNat + n - 1) = 0x3D#8 then 1 else 0)

/-- R124: the reference order, four reads of a group and then its writes with the write cursor behind, writes exactly
`decode(T)` of the text as it was before, for every memory, start and number of groups; and that is what DECODE leaves. -/
def Obligations.InPlacePassWritesTheDecodedText : Prop :=
  (∀ (m : Memory) (a g : Nat),
    decodeInPlace m a a g =
      (m.writeBytes a (decodeChars (m.readBytes a (4 * g))), a + (decodeChars (m.readBytes a (4 * g))).length)) ∧
  (∀ s : State, s.decodeCheck = none → ∃ t, exec .decode s = .next t ∧
    t.mem = (decodeInPlace s.mem s.src.toNat s.src.toNat (s.len.toNat / 4)).1 ∧
    t.rlen.toNat = (decodeInPlace s.mem s.src.toNat s.src.toNat (s.len.toNat / 4)).2 - s.src.toNat)

/-- R130: the round trip of the functions, and on the block: ENCODE without an error, then DECODE of the output region,
gives the input back. It holds whatever `Config.revInvalid` and `Config.prevInvalid` are. -/
def Obligations.RoundTrip : Prop :=
  (∀ bs : List Byte, decodeChars (encodeBytes bs) = bs) ∧
  (∀ s t : State, s.err = false → exec .encode s = .next t → t.err = false →
    ∃ u, exec .decode { t with src := s.dst, len := t.rlen } = .next u ∧ u.err = false ∧ u.rlen = s.len ∧
      u.mem.readBytes s.dst.toNat s.len.toNat = s.mem.readBytes s.src.toNat s.len.toNat)

/-- R131: which characters each decoded byte depends on, and that with alphabet characters no open ROM entry plays a part. -/
def Obligations.DecodedBytesDependOnTheirCharacters : Prop :=
  (∀ c0 c1 c2 c3 d2 d3 : Byte, (decFinalBytes ⟨c0, c1, c2, c3⟩).b0 = (decFinalBytes ⟨c0, c1, d2, d3⟩).b0) ∧
  (∀ c0 c1 c2 c3 d0 d3 : Byte, (decFinalBytes ⟨c0, c1, c2, c3⟩).b1 = (decFinalBytes ⟨d0, c1, c2, d3⟩).b1) ∧
  (∀ c0 c1 c2 c3 d0 d1 : Byte, (decFinalBytes ⟨c0, c1, c2, c3⟩).b2 = (decFinalBytes ⟨d0, d1, c2, c3⟩).b2) ∧
  (∀ c0 c1 c3 d3 : Byte, decFinal ⟨c0, c1, padChar, c3⟩ = decFinal ⟨c0, c1, padChar, d3⟩ ∧
    decFinal ⟨c0, c1, padChar, c3⟩ = [(reverse c0 ++ reverse c1).extractLsb' 4 8]) ∧
  (∀ c0 c1 c2 : Byte, c2 ≠ padChar → decFinal ⟨c0, c1, c2, padChar⟩ =
    [(reverse c0 ++ reverse c1).extractLsb' 4 8, (reverse c1 ++ reverse c2).extractLsb' 2 8]) ∧
  (∀ c0 c1 c2 c3 d2 d3 : Byte,
    (decGroup ⟨c0, c1, c2, c3⟩).b0 = (decGroup ⟨c0, c1, d2, d3⟩).b0 ∧
    (decGroup ⟨c0, c1, c2, c3⟩).b1.extractLsb' 4 4 = (decGroup ⟨c0, c1, d2, d3⟩).b1.extractLsb' 4 4) ∧
  (∀ c0 c1 c2 c3 d0 d1 : Byte,
    (decGroup ⟨c0, c1, c2, c3⟩).b1.extractLsb' 0 4 = (decGroup ⟨d0, d1, c2, c3⟩).b1.extractLsb' 0 4 ∧
    (decGroup ⟨c0, c1, c2, c3⟩).b2 = (decGroup ⟨d0, d1, c2, c3⟩).b2) ∧
  (∀ (g : Chars4) (v0 v1 v2 v3 : BitVec 6),
    (forward v0 = g.c0 → forward v1 = g.c1 →
      (decGroup g).b0 = (v0 ++ v1).extractLsb' 4 8 ∧ (decFinalBytes g).b0 = (v0 ++ v1).extractLsb' 4 8) ∧
    (forward v0 = g.c0 → forward v1 = g.c1 → forward v2 = g.c2 → forward v3 = g.c3 →
      (decGroup g).b1 = (v1 ++ v2).extractLsb' 2 8) ∧
    (forward v1 = g.c1 → forward v2 = g.c2 → (decFinalBytes g).b1 = (v1 ++ v2).extractLsb' 2 8) ∧
    (forward v2 = g.c2 → forward v3 = g.c3 →
      (decGroup g).b2 = (v2 ++ v3).extractLsb' 0 8 ∧ (decFinalBytes g).b2 = (v2 ++ v3).extractLsb' 0 8))

/-- R128 and R189: what the characters are never makes an error: the flags after ENCODE and DECODE are the same whatever the
memory holds, and the group commands set no flag but those of completion. -/
def Obligations.NoCharacterIsAnError : Prop :=
  (∀ (i : Instr) (s t u : State) (m : Memory), i = .encode ∨ i = .decode →
    exec i s = .next t → exec i { s with mem := m } = .next u → u.err = t.err ∧ u.errcode = t.errcode) ∧
  (∀ (i : Instr) (s t : State), i ∈ [Instr.encgrp, .enct1, .enct2, .decgrp, .decfin] → exec i s = .next t →
    t.err = s.err ∧ t.errcode = s.errcode)

/-! ## The lookup ROM (43_lookup_rom.md) -/

/-- R142: FORWARD maps 0-25 to `A`-`Z`, 26-51 to `a`-`z`, 52-61 to `0`-`9`, 62 to `+`, 63 to `/`. -/
def Obligations.ForwardHoldsTheStandardAlphabet : Prop :=
  ∀ v : BitVec 6, (forward v).toNat =
    if v.toNat < 26 then 0x41 + v.toNat
    else if v.toNat < 52 then 0x61 + (v.toNat - 26)
    else if v.toNat < 62 then 0x30 + (v.toNat - 52)
    else if v.toNat = 62 then 0x2B else 0x2F

/-- R149: ROMRD.F reads FORWARD; an index of 64 or more is error INDEX, unmasked; RLEN is not written on success. -/
def Obligations.RomrdReadsForward : Prop :=
  decodeCmd 0x00000008#32 = .legal .romrdF ∧
  ∀ s : State,
    (∀ v : BitVec 6, s.din.toNat = v.toNat → exec .romrdF s = .next { s with
      dout := 0#24 ++ forward v, busy := false, done := true }) ∧
    (64 ≤ s.din.toNat → exec .romrdF s = .next { s with
      err := true, errcode := 6, rlen := 0, busy := false, done := true })

/-- R150: ROMRD.PF reads PAIR_FORWARD, whose entry is the two FORWARD entries, the first in the high half (R143). -/
def Obligations.RomrdReadsPairForward : Prop :=
  decodeCmd 0x00000108#32 = .legal .romrdPf ∧
  ∀ s : State,
    (∀ f0 f1 : BitVec 6, s.din.toNat = 64 * f0.toNat + f1.toNat → exec .romrdPf s = .next { s with
      dout := 0#16 ++ forward f0 ++ forward f1, busy := false, done := true }) ∧
    (4096 ≤ s.din.toNat → exec .romrdPf s = .next { s with
      err := true, errcode := 6, rlen := 0, busy := false, done := true })

/-- R151: ROMRD.R reads REVERSE: at an alphabet byte the value FORWARD gives it from (R144), at any other byte the open
entry (R145), which is no error. -/
def Obligations.RomrdReadsReverse : Prop :=
  decodeCmd 0x00000208#32 = .legal .romrdR ∧
  ∀ s : State,
    (∀ v : BitVec 6, s.din.toNat = (forward v).toNat → exec .romrdR s = .next { s with
      dout := 0#26 ++ v, busy := false, done := true }) ∧
    (∀ c : Byte, s.din.toNat = c.toNat → (∀ v : BitVec 6, forward v ≠ c) → exec .romrdR s = .next { s with
      dout := 0#26 ++ Config.revInvalid c, busy := false, done := true }) ∧
    (256 ≤ s.din.toNat → exec .romrdR s = .next { s with
      err := true, errcode := 6, rlen := 0, busy := false, done := true })

/-- R152: ROMRD.PR reads PAIR_REVERSE: at two alphabet bytes their two values, the first high (R146), at any other index
the open entry (R147), which is no error. -/
def Obligations.RomrdReadsPairReverse : Prop :=
  decodeCmd 0x00000308#32 = .legal .romrdPr ∧
  ∀ s : State,
    (∀ v0 v1 : BitVec 6, s.din.toNat = 256 * (forward v0).toNat + (forward v1).toNat →
      exec .romrdPr s = .next { s with dout := 0#20 ++ v0 ++ v1, busy := false, done := true }) ∧
    (∀ c0 c1 : Byte, s.din.toNat = 256 * c0.toNat + c1.toNat →
      ((∀ v : BitVec 6, forward v ≠ c0) ∨ (∀ v : BitVec 6, forward v ≠ c1)) →
      exec .romrdPr s = .next { s with
        dout := 0#20 ++ Config.prevInvalid (c0 ++ c1), busy := false, done := true }) ∧
    (65536 ≤ s.din.toNat → exec .romrdPr s = .next { s with
      err := true, errcode := 6, rlen := 0, busy := false, done := true })

/-- R153: REVERSE undoes FORWARD, FORWARD is one-to-one onto the alphabet bytes, none of them `=`, and PAIR_REVERSE undoes
PAIR_FORWARD. -/
def Obligations.ReverseTablesUndoForwardTables : Prop :=
  (∀ v : BitVec 6, reverse (forward v) = v) ∧
  (∀ v w : BitVec 6, forward v = forward w → v = w) ∧
  (∀ c : Byte, isAlpha c = true ↔ ∃ v : BitVec 6, forward v = c) ∧
  (∀ v : BitVec 6, forward v ≠ 0x3D#8) ∧
  (∀ i : BitVec 12, pairReverse (pairForward i) = i)

/-! ## The bit packing unit (44_bit_pack_unpack.md) -/

/-- R166: SPLIT6. -/
def Obligations.SplitSixSplitsTheGroup : Prop :=
  decodeCmd 0x00000009#32 = .legal .split6 ∧
  ∀ s : State, exec .split6 s = .next { s with
    dout := 0#2 ++ s.din.extractLsb' 18 6 ++ 0#2 ++ s.din.extractLsb' 12 6 ++ 0#2 ++ s.din.extractLsb' 6 6 ++ 0#2 ++
      s.din.extractLsb' 0 6
    busy := false, done := true }

/-- R167: JOIN6. -/
def Obligations.JoinSixJoinsTheFields : Prop :=
  decodeCmd 0x0000000A#32 = .legal .join6 ∧
  ∀ s : State, exec .join6 s = .next { s with
    dout := 0#8 ++ s.din.extractLsb' 24 6 ++ s.din.extractLsb' 16 6 ++ s.din.extractLsb' 8 6 ++ s.din.extractLsb' 0 6
    busy := false, done := true }

/-- R168: packing and unpacking undo each other, and the pair halves are pairs of fields. -/
def Obligations.PackingLaws : Prop :=
  (∀ g : Bytes3, unpack24 (pack24 g) = g) ∧
  (∀ v : BitVec 24, pack24 (unpack24 v) = v) ∧
  (∀ v : BitVec 24, join6 (split6 v) = v) ∧
  (∀ f : Fields4, split6 (join6 f) = f) ∧
  (∀ v : BitVec 24, join12 (split12 v).1 (split12 v).2 = v) ∧
  (∀ hi lo : BitVec 12, split12 (join12 hi lo) = (hi, lo)) ∧
  (∀ v : BitVec 24, split12 v =
    (((split6 v).f0.setWidth 12 <<< 6) ||| (split6 v).f1.setWidth 12,
     ((split6 v).f2.setWidth 12 <<< 6) ||| (split6 v).f3.setWidth 12))

/-! ## The register port (10_state.md) -/

/-- R22: ID reads 0x42363401 in every state (with `rst` released) and ignores writes. -/
def Obligations.IdIsAConstant : Prop :=
  (∀ (s : State) (rest : List Input), s.rst = false → s.inputs = .host (.rd 0) :: rest →
    step s = .next { s with inputs := rest, reply := .word 0x42363401 }) ∧
  (∀ (s : State) (v : Word) (rest : List Input), s.inputs = .host (.wr 0 v) :: rest →
    step s = .next { s with inputs := rest })

/-- R36: the word indices 10 to 15 read 0 and ignore writes in every state. -/
def Obligations.ReservedIndicesReadZeroAndIgnoreWrites : Prop :=
  ∀ (s : State) (idx : Fin 16) (v : Word) (rest : List Input), 10 ≤ idx.val →
    (s.inputs = .host (.rd idx) :: rest → step s = .next { s with inputs := rest, reply := .word 0 }) ∧
    (s.inputs = .host (.wr idx v) :: rest → step s = .next { s with inputs := rest })

/-- R34 and R35, "in no other way": DOUT and RLEN change only in a completion or by reset; a host write to them is ignored
in every state. A completion is the block's turn, or the step with nothing left to happen (the model's choice, log 4). -/
def Obligations.ResultRegistersChangeOnlyAtCompletionOrReset : Prop :=
  (∀ s t : State, step s = .next t → t.dout ≠ s.dout ∨ t.rlen ≠ s.rlen →
    (s.busy = true ∧ (s.inputs = [] ∨ ∃ rest, s.inputs = .turn :: rest)) ∨ ∃ rest, s.inputs = .rstAssert :: rest) ∧
  (∀ (s : State) (idx : Fin 16) (v : Word) (rest : List Input), idx = 8 ∨ idx = 9 →
    s.inputs = .host (.wr idx v) :: rest → step s = .next { s with inputs := rest })

/-- R24: what a read of STATUS returns bit by bit, and what a write clears, in every state with `rst` released. -/
def Obligations.StatusReadsItsFieldsAndClearsOnWritingOne : Prop :=
  (∀ (s : State) (rest : List Input), s.rst = false → s.inputs = .host (.rd 2) :: rest →
    ∃ w : Word, step s = .next { s with inputs := rest, reply := .word w } ∧
      w.getLsbD 0 = s.busy ∧ w.getLsbD 1 = s.done ∧ w.getLsbD 2 = s.err ∧ w.getLsbD 3 = s.wbusy ∧
      w.extractLsb' 4 4 = s.errcode ∧ w.extractLsb' 8 24 = 0#24) ∧
  (∀ (s : State) (v : Word) (rest : List Input), s.rst = false → s.inputs = .host (.wr 2 v) :: rest →
    step s = .next { s with
      inputs := rest
      done := if v.getLsbD 1 then false else s.done
      err := if v.getLsbD 2 then false else s.err
      errcode := if v.getLsbD 2 then 0 else s.errcode
      wbusy := if v.getLsbD 3 then false else s.wbusy })

/-- R29: IRQEN holds DONE_IE in bit 0 and nothing else, and is writable in every state. -/
def Obligations.IrqenHoldsOnlyItsEnable : Prop :=
  (∀ (s : State) (v : Word) (rest : List Input), s.rst = false → s.inputs = .host (.wr 3 v) :: rest →
    step s = .next { s with inputs := rest, doneIe := v.getLsbD 0 }) ∧
  (∀ (s : State) (rest : List Input), s.rst = false → s.inputs = .host (.rd 3) :: rest →
    step s = .next { s with inputs := rest, reply := .word (if s.doneIe then 1 else 0) })

/-- R30 to R33: SRC, DST, LEN and DIN, written while the block is idle, take every value and read back as written. -/
def Obligations.OperandRegistersReadBackAsWritten : Prop :=
  ∀ (s : State) (v : Word) (rest : List Input), s.busy = false → s.rst = false →
    (s.inputs = .host (.wr 4 v) :: .host (.rd 4) :: rest →
      Host.Core.run core 2 s = .next { s with inputs := rest, src := v, reply := .word v }) ∧
    (s.inputs = .host (.wr 5 v) :: .host (.rd 5) :: rest →
      Host.Core.run core 2 s = .next { s with inputs := rest, dst := v, reply := .word v }) ∧
    (s.inputs = .host (.wr 6 v) :: .host (.rd 6) :: rest →
      Host.Core.run core 2 s = .next { s with inputs := rest, len := v, reply := .word v }) ∧
    (s.inputs = .host (.wr 7 v) :: .host (.rd 7) :: rest →
      Host.Core.run core 2 s = .next { s with inputs := rest, din := v, reply := .word v })

/-- R38: DOUT and RLEN read while BUSY = 1 are free words, each read's its own (the model's draw, log 3); while BUSY = 0
they read as they are. CMD, SRC, DST, LEN and DIN read as they are in both (ID, STATUS, IRQEN and the reserved indices:
`IdIsAConstant`, `StatusReadsItsFieldsAndClearsOnWritingOne`, `IrqenHoldsOnlyItsEnable`,
`ReservedIndicesReadZeroAndIgnoreWrites`). -/
def Obligations.ResultReadsWhileBusyAreFree : Prop :=
  (∀ (s : State) (idx : Fin 16) (rest : List Input), s.rst = false → s.busy = true → idx = 8 ∨ idx = 9 →
    s.inputs = .host (.rd idx) :: rest →
    step s = .next { s with inputs := rest, reply := .word (Config.drawWord s.draws), draws := s.draws + 1 }) ∧
  (∀ (s : State) (rest : List Input), s.rst = false → s.busy = false →
    (s.inputs = .host (.rd 8) :: rest → step s = .next { s with inputs := rest, reply := .word s.dout }) ∧
    (s.inputs = .host (.rd 9) :: rest → step s = .next { s with inputs := rest, reply := .word s.rlen })) ∧
  (∀ (s : State) (rest : List Input), s.rst = false →
    (s.inputs = .host (.rd 1) :: rest → step s = .next { s with inputs := rest, reply := .word s.cmd }) ∧
    (s.inputs = .host (.rd 4) :: rest → step s = .next { s with inputs := rest, reply := .word s.src }) ∧
    (s.inputs = .host (.rd 5) :: rest → step s = .next { s with inputs := rest, reply := .word s.dst }) ∧
    (s.inputs = .host (.rd 6) :: rest → step s = .next { s with inputs := rest, reply := .word s.len }) ∧
    (s.inputs = .host (.rd 7) :: rest → step s = .next { s with inputs := rest, reply := .word s.din }))

/-- R187: `irq` is DONE and DONE_IE, both 1. It rises only when a command completes with the interrupt enabled, or when the
host enables it with DONE = 1, and it rises at such a completion with or without an error. It falls only by a write of
STATUS with bit 1 = 1, by the acceptance of the next command, by masking, or by reset. That those four clear it is said by
`StatusReadsItsFieldsAndClearsOnWritingOne`, `CmdWriteWhileIdleIsAccepted`, `IrqenHoldsOnlyItsEnable` and
`ResetClearsEveryRegister`. That a pending command completes when nothing is left to happen (`s.inputs = []`) is the model's
choice of log 4. -/
def Obligations.InterruptRisesAndFallsOnlyByItsEvents : Prop :=
  (∀ s : State, s.irq = true ↔ s.done = true ∧ s.doneIe = true) ∧
  (∀ s t : State, step s = .next t → s.irq = false → t.irq = true →
    (s.busy = true ∧ s.doneIe = true ∧ (s.inputs = [] ∨ ∃ rest, s.inputs = .turn :: rest)) ∨
    (s.done = true ∧ ∃ v rest, s.inputs = .host (.wr 3 v) :: rest ∧ v.getLsbD 0 = true)) ∧
  (∀ s : State, s.busy = true → s.doneIe = true → (s.inputs = [] ∨ ∃ rest, s.inputs = .turn :: rest) →
    ∃ t, step s = .next t ∧ t.irq = true) ∧
  (∀ s t : State, step s = .next t → s.irq = true → t.irq = false →
    (∃ rest, s.inputs = .rstAssert :: rest) ∨
    (∃ v rest, s.inputs = .host (.wr 2 v) :: rest ∧ v.getLsbD 1 = true) ∨
    (∃ v rest, s.inputs = .host (.wr 3 v) :: rest ∧ v.getLsbD 0 = false) ∨
    (s.busy = false ∧ ∃ v rest, s.inputs = .host (.wr 1 v) :: rest))

/-- R28: WBUSY rises only by a host write to CMD, SRC, DST, LEN or DIN while BUSY = 1, and by every such write; it falls only
by a host write of STATUS with bit 3 = 1, or by reset. So neither acceptance nor completion changes it. -/
def Obligations.WbusyRisesAndFallsOnlyByItsEvents : Prop :=
  (∀ s t : State, step s = .next t → s.wbusy = false → t.wbusy = true →
    s.busy = true ∧ s.rst = false ∧
      ∃ idx v rest, s.inputs = .host (.wr idx v) :: rest ∧ idx ∈ [(1 : Fin 16), 4, 5, 6, 7]) ∧
  (∀ (s : State) (idx : Fin 16) (v : Word) (rest : List Input), s.busy = true → s.rst = false →
    idx ∈ [(1 : Fin 16), 4, 5, 6, 7] → s.inputs = .host (.wr idx v) :: rest →
    ∃ t, step s = .next t ∧ t.wbusy = true) ∧
  (∀ s t : State, step s = .next t → s.wbusy = true → t.wbusy = false →
    (∃ rest, s.inputs = .rstAssert :: rest) ∨
    (s.rst = false ∧ ∃ v rest, s.inputs = .host (.wr 2 v) :: rest ∧ v.getLsbD 3 = true))

/-! ## Reset (70_reset_and_hazards.md) -/

/-- R200: asserting `rst` at any time puts every register in its reset value and leaves no command pending; while it is
asserted register writes are ignored and register reads return 0; after the release the block is as it was. That a release
changes the line and nothing else, in every state, is the model's reading of log 6; that ID too reads 0 while `rst` is
asserted, where R22 says "always", is that of log 16. -/
def Obligations.ResetClearsEveryRegister : Prop :=
  (∀ (s : State) (rest : List Input), s.inputs = .rstAssert :: rest →
    ∃ t, step s = .next t ∧ t.atReset ∧ t.irq = false ∧ t.rst = true ∧ t.inputs = rest) ∧
  (∀ (s : State) (idx : Fin 16) (v : Word) (rest : List Input), s.rst = true →
    (s.inputs = .host (.wr idx v) :: rest → step s = .next { s with inputs := rest }) ∧
    (s.inputs = .host (.rd idx) :: rest → step s = .next { s with inputs := rest, reply := .word 0 })) ∧
  (∀ (s : State) (rest : List Input), s.inputs = .rstRelease :: rest →
    step s = .next { s with inputs := rest, rst := false })

/-- R201 and R202: reset leaves the memory as it is, but for the write region of a command it aborts, each byte of which
holds a value of its own that nothing fixes (the model's draw, log 3): ENCODE's output region if its checks would pass,
DECODE's region if its checks would. -/
def Obligations.ResetLeavesMemoryButTheAbortedRegion : Prop :=
  ∀ (s : State) (rest : List Input), s.inputs = .rstAssert :: rest →
    ∃ t, step s = .next t ∧
      (s.busy = false → ∀ a, t.readByte a = s.readByte a) ∧
      (s.busy = true → decodeCmd s.cmd = .legal .encode → s.encodeCheck = none →
        (∀ a, ¬ (s.dst.toNat ≤ a ∧ a < s.dst.toNat + 4 * ceilDiv s.len.toNat 3) → t.readByte a = s.readByte a) ∧
        (∀ k, k < 4 * ceilDiv s.len.toNat 3 → t.readByte (s.dst.toNat + k) = Config.drawByte (s.draws + k))) ∧
      (s.busy = true → decodeCmd s.cmd = .legal .decode → s.decodeCheck = none →
        (∀ a, ¬ (s.src.toNat ≤ a ∧ a < s.src.toNat + s.len.toNat) → t.readByte a = s.readByte a) ∧
        (∀ k, k < s.len.toNat → t.readByte (s.src.toNat + k) = Config.drawByte (s.draws + k))) ∧
      (s.busy = true → (decodeCmd s.cmd = .legal .encode → s.encodeCheck ≠ none) →
        (decodeCmd s.cmd = .legal .decode → s.decodeCheck ≠ none) → ∀ a, t.readByte a = s.readByte a)

/-! ## Memory, hazards and whole-machine rules -/

/-- R50: bytes the host writes while the block is idle read back, and no other byte changes. -/
def Obligations.HostMemoryWriteReadsBack : Prop :=
  ∀ (s : State) (a : Word) (bs : List Byte) (rest : List Input), s.busy = false →
    bs.length = 0 ∨ a.toNat + bs.length ≤ s.memSize →
    s.inputs = .host (.mw a bs) :: .host (.mr a bs.length) :: rest →
    ∃ t, Host.Core.run core 2 s = .next t ∧ t.reply = .bytes bs ∧
      (∀ x, ¬ (a.toNat ≤ x ∧ x < a.toNat + bs.length) → t.readByte x = s.readByte x) ∧
      t.hazard = s.hazard ∧ t.inputs = rest

/-- R58 and R210. The regions of the pending command are those of R58's table; the two points the table leaves to a model
are an ENCODE whose checks will fail, which keeps its regions (log 9), and a disturbed DECODE, whose RLEN is open and whose
write region is taken at its bound (log 8). A host write into a region sets the sticky mark `hazard`, which no step clears,
and the model's mark `disturbed` (log 7). The disturbed command still completes: every byte of its write region and RLEN are
values that nothing fixes (the model's draws, log 3), nothing outside its write region is written, and all else is as it
would be without the hazard (log 7). -/
def Obligations.HostWriteIntoAPendingRegionIsAHazard : Prop :=
  (∀ (s : State) (x : Nat),
    (s.busy = true → decodeCmd s.cmd = .legal .encode →
      (s.pendingReads.contains x = true ↔ s.src.toNat ≤ x ∧ x < s.src.toNat + s.len.toNat) ∧
      (s.pendingWrites.contains x = true ↔ s.dst.toNat ≤ x ∧ x < s.dst.toNat + 4 * ceilDiv s.len.toNat 3)) ∧
    (s.busy = true → decodeCmd s.cmd = .legal .decode →
      (s.pendingReads.contains x = true ↔ s.src.toNat ≤ x ∧ x < s.src.toNat + s.len.toNat) ∧
      (s.disturbed = false → ∃ t, exec .decode s = .next t ∧
        (s.pendingWrites.contains x = true ↔ s.src.toNat ≤ x ∧ x < s.src.toNat + t.rlen.toNat)) ∧
      (s.disturbed = true →
        (s.pendingWrites.contains x = true ↔
          s.decodeCheck = none ∧ 4 ≤ s.len.toNat ∧ s.src.toNat ≤ x ∧ x < s.src.toNat + 3 * s.len.toNat / 4))) ∧
    ((s.busy = true → decodeCmd s.cmd ≠ .legal .encode ∧ decodeCmd s.cmd ≠ .legal .decode) →
      s.pendingReads.contains x = false ∧ s.pendingWrites.contains x = false)) ∧
  (∀ (s : State) (a : Word) (bs : List Byte) (rest : List Input) (x : Nat),
    s.inputs = .host (.mw a bs) :: rest → a.toNat + bs.length ≤ s.memSize →
    a.toNat ≤ x → x < a.toNat + bs.length →
    (s.pendingReads.contains x = true ∨ s.pendingWrites.contains x = true) →
    ∃ t, step s = .next t ∧ t = { s with inputs := rest, hazard := true, disturbed := true, mem := t.mem } ∧
      ∀ y, ¬ (a.toNat ≤ y ∧ y < a.toNat + bs.length) → t.readByte y = s.readByte y) ∧
  (∀ s t : State, step s = .next t → s.hazard = true → t.hazard = true) ∧
  (∀ (s : State) (rest : List Input), s.busy = true → s.disturbed = true → s.inputs = .turn :: rest →
    ∃ t u, step s = .next t ∧ t.busy = false ∧ t.done = true ∧
      step { s with disturbed := false } = .next u ∧ t = { u with mem := t.mem, rlen := t.rlen, draws := t.draws } ∧
      (∃ k, t.rlen = Config.drawWord k) ∧
      (∀ a, s.pendingWrites.contains a = false → t.readByte a = s.readByte a) ∧
      (∀ a, a < s.memSize → s.pendingWrites.contains a = true → ∃ k, t.readByte a = Config.drawByte k))

/-- R61: the host's use of memory outside the regions of the pending command is unaffected by the command and does not affect
it: a write there before the completion and the same write after it give the same state. The regions are written out from
R58's table: ENCODE's two, DECODE's one (what it writes is a prefix of what it reads), and none of any other word. -/
def Obligations.HostWriteElsewhereCommutesWithCompletion : Prop :=
  ∀ (s : State) (a : Word) (bs : List Byte), s.Inv → s.busy = true → s.disturbed = false →
    (bs.length = 0 ∨ a.toNat + bs.length ≤ s.memSize) →
    (∀ x, a.toNat ≤ x → x < a.toNat + bs.length →
      (decodeCmd s.cmd = .legal .encode →
        ¬ (s.src.toNat ≤ x ∧ x < s.src.toNat + s.len.toNat) ∧
        ¬ (s.dst.toNat ≤ x ∧ x < s.dst.toNat + 4 * ceilDiv s.len.toNat 3)) ∧
      (decodeCmd s.cmd = .legal .decode → ¬ (s.src.toNat ≤ x ∧ x < s.src.toNat + s.len.toNat))) →
    Host.Core.run core 2 { s with inputs := [.host (.mw a bs), .turn] } =
      Host.Core.run core 2 { s with inputs := [.turn, .host (.mw a bs)] }

/-- Reset: the values of 10_state.md R44, no command pending, and the invariant. -/
def Obligations.ResetStateHoldsTheResetValuesAndTheInvariant : Prop :=
  State.reset.atReset ∧ State.reset.rst = false ∧ State.reset.mem = [] ∧ State.reset.Inv

/-- The invariant (Safety.lean) is kept by every step from every state that meets it: the host's, the block's and the reset
line's. -/
def Obligations.EveryStepKeepsTheInvariant : Prop := ∀ s t : State, s.Inv → step s = .next t → t.Inv

/-- R92: a pending command completes. When every host operation left names bytes that exist, running through what is left and
once more leaves nothing pending; and if no reset and no register write is among it, DONE is 1. -/
def Obligations.PendingCommandCompletes : Prop :=
  ∀ s : State, (∀ i ∈ s.inputs, i.wellFormed s.memSize = true) →
    ∃ t, Host.Core.run core (s.inputs.length + 1) s = .next t ∧ t.busy = false ∧ t.inputs = [] ∧
      (s.busy = true → (∀ i ∈ s.inputs, i ≠ .rstAssert ∧ ∀ idx v, i ≠ .host (.wr idx v)) → t.done = true)

/-- No step is refused, a step stops exactly when the host names a byte that does not exist (the model's choice, log 10), and
no step changes MEM_SIZE. -/
def Obligations.StepStopsOnlyOnHostAccessOutsideMemory : Prop :=
  (∀ (s : State) (r : Refusal), step s ≠ .refused r) ∧
  (∀ s : State, (∃ f, step s = .fault f) ↔
    ∃ op rest, s.inputs = .host op :: rest ∧ op.wellFormed s.memSize = false) ∧
  (∀ s t : State, step s = .next t → t.memSize = s.memSize)

/-- R75: the registers each command reads. What a command does not read may hold anything: the command does the same and
leaves it as it was. -/
def Obligations.CommandsReadOnlyTheirOperands : Prop :=
  (∀ (s t : State) (a b l d : Word) (m : Memory), exec .nop s = .next t →
    exec .nop { s with src := a, dst := b, len := l, din := d, mem := m } =
      .next { t with src := a, dst := b, len := l, din := d, mem := m }) ∧
  (∀ (s t : State) (d : Word), exec .encode s = .next t → exec .encode { s with din := d } = .next { t with din := d }) ∧
  (∀ (s t : State) (b d : Word), exec .decode s = .next t →
    exec .decode { s with dst := b, din := d } = .next { t with dst := b, din := d }) ∧
  (∀ (i : Instr) (s t : State) (a b l : Word) (m : Memory), i.readsDin = true → exec i s = .next t →
    exec i { s with src := a, dst := b, len := l, mem := m } =
      .next { t with src := a, dst := b, len := l, mem := m })

/-- R79: `RUN` from an idle block, whatever the latency: each poll before the completion sees DONE = 0, and the last read of
STATUS sees DONE = 1 of the command that was issued. -/
def Obligations.RunPseudoInstructionWaitsForDone : Prop :=
  ∀ (s : State) (i : Instr) (polls : Nat) (rest : List Input),
    s.busy = false → s.rst = false → s.inputs = (Pseudo.run i polls).expand ++ rest →
    (∀ j, 1 ≤ j → j ≤ polls →
      ∃ u w, Host.Core.run core (j + 1) s = .next u ∧ u.reply = .word w ∧ w.getLsbD 1 = false) ∧
    ∃ t w, Host.Core.run core (polls + 3) s = .next t ∧ t.reply = .word w ∧ w.getLsbD 1 = true ∧
      t.busy = false ∧ t.cmd = encode i ∧ t.inputs = rest

/-- R61 and R50: what a host memory read returns. A byte of the pending command's write region (R58's, by
`HostWriteIntoAPendingRegionIsAHazard`; empty while the block is idle) is a value that nothing fixes, each byte of each read
its own (the model's draw, log 3); every other byte, of the read region too, is the byte of the memory. The read changes
nothing but the reply and the count of draws. That its bytes are read in one step is the model's choice of log 12. -/
def Obligations.HostMemoryReadDrawsOnlyInAPendingWriteRegion : Prop :=
  ∀ (s : State) (a : Word) (n : Nat) (rest : List Input), s.inputs = .host (.mr a n) :: rest →
    (n = 0 ∨ a.toNat + n ≤ s.memSize) →
    ∃ bs : List Byte,
      step s = .next { s with inputs := rest, reply := .bytes bs, draws := s.draws + n } ∧ bs.length = n ∧
      (∀ k, k < n → s.pendingWrites.contains (a.toNat + k) = false → bs[k]? = some (s.readByte (a.toNat + k))) ∧
      (∀ k, k < n → s.pendingWrites.contains (a.toNat + k) = true → bs[k]? = some (Config.drawByte (s.draws + k)))
end

