-- ==== Sys2Proof/Laws/Memory.lean ====
section
/-! SUPPORT. The laws of the buffer memory: read after write, what a write leaves alone, and that every memory operation
keeps the canonical form, in which equal memories are equal lists. -/

namespace Sys2Proof.Machine

/-! ## One byte -/

@[simp] theorem Memory.lookup_nil (x : Nat) : Memory.lookup [] x = none := rfl

theorem Memory.lookup_cons (c : Host.Cell) (m : Memory) (x : Nat) :
    Memory.lookup (c :: m) x = if c.1 = x then some c.2 else Memory.lookup m x := rfl

theorem Memory.lookup_write_same (m : Memory) (x : Nat) (v : Byte) : (m.write x v).lookup x = some v := by
  induction m with
  | nil => simp [Memory.write, Memory.lookup_cons]
  | cons c m ih =>
    simp only [Memory.write]
    split
    · simp [Memory.lookup_cons]
    · split
      · simp [Memory.lookup_cons]
      · next h => rw [Memory.lookup_cons, if_neg (Ne.symm h), ih]

theorem Memory.lookup_write_other (m : Memory) {x y : Nat} (v : Byte) (h : y ≠ x) :
    (m.write x v).lookup y = m.lookup y := by
  induction m with
  | nil => simp [Memory.write, Memory.lookup_cons, Ne.symm h]
  | cons c m ih =>
    simp only [Memory.write]
    split
    · rw [Memory.lookup_cons, if_neg (Ne.symm h)]
    · split
      · next hx => rw [Memory.lookup_cons, Memory.lookup_cons, if_neg (Ne.symm h), if_neg (hx ▸ Ne.symm h)]
      · rw [Memory.lookup_cons, Memory.lookup_cons, ih]

theorem Memory.lookup_write (m : Memory) (x y : Nat) (v : Byte) :
    (m.write x v).lookup y = if y = x then some v else m.lookup y := by
  split
  · next h => rw [h, Memory.lookup_write_same]
  · next h => exact Memory.lookup_write_other m v h

/-- A read after a write: the byte written at its address, the old byte elsewhere (20_memory.md R50). -/
theorem Memory.read_write (m : Memory) (x y : Nat) (v : Byte) :
    (m.write x v).read y = if y = x then v else m.read y := by
  unfold Memory.read
  rw [Memory.lookup_write]
  split <;> rfl

/-! ## Many bytes -/

/-- What a wide write leaves at each address. -/
theorem Memory.lookup_writeBytes (m : Memory) (a : Nat) (bs : List Byte) (y : Nat) :
    (m.writeBytes a bs).lookup y =
      if a ≤ y ∧ y < a + bs.length then bs[y - a]? else m.lookup y := by
  induction bs generalizing m a with
  | nil => simp only [Memory.writeBytes, List.length_nil]; rw [if_neg (by omega)]
  | cons b bs ih =>
    simp only [Memory.writeBytes, List.length_cons]
    rw [ih, Memory.lookup_write]
    by_cases h1 : y = a
    · subst h1; rw [if_neg (by omega), if_pos rfl, if_pos (by omega)]; simp
    · by_cases h2 : a + 1 ≤ y ∧ y < a + 1 + bs.length
      · rw [if_pos h2, if_pos (by omega)]
        obtain ⟨k, rfl⟩ : ∃ k, y = a + 1 + k := ⟨y - (a + 1), by omega⟩
        have e1 : a + 1 + k - (a + 1) = k := by omega
        have e2 : a + 1 + k - a = k + 1 := by omega
        rw [e1, e2, List.getElem?_cons_succ]
      · rw [if_neg h2, if_neg h1, if_neg (by omega)]

/-- A wide write changes no byte outside its own bytes. -/
theorem Memory.read_writeBytes_outside (m : Memory) (a : Nat) (bs : List Byte) {y : Nat}
    (h : ¬ (a ≤ y ∧ y < a + bs.length)) : (m.writeBytes a bs).read y = m.read y := by
  unfold Memory.read
  rw [Memory.lookup_writeBytes, if_neg h]

/-- A wide write leaves its `k`-th byte at `a + k`. -/
theorem Memory.read_writeBytes_inside (m : Memory) (a : Nat) (bs : List Byte) {k : Nat} (h : k < bs.length) :
    (m.writeBytes a bs).read (a + k) = bs[k] := by
  unfold Memory.read
  rw [Memory.lookup_writeBytes, if_pos ⟨by omega, by omega⟩]
  simp [h]

@[simp] theorem Memory.readBytes_length (m : Memory) (a n : Nat) : (m.readBytes a n).length = n := by
  induction n generalizing a with
  | zero => rfl
  | succ n ih => simp [Memory.readBytes, ih]

theorem Memory.readBytes_getElem (m : Memory) (a n k : Nat) (h : k < (m.readBytes a n).length) :
    (m.readBytes a n)[k] = m.read (a + k) := by
  induction n generalizing a k with
  | zero => simp [Memory.readBytes] at h
  | succ n ih =>
    cases k with
    | zero => simp [Memory.readBytes]
    | succ k =>
      simp only [Memory.readBytes, List.getElem_cons_succ]
      rw [ih]
      congr 1
      omega

/-- Two memories that agree on a region give the same bytes of it. -/
theorem Memory.readBytes_congr {m m' : Memory} {a n : Nat} (h : ∀ x, a ≤ x → x < a + n → m.read x = m'.read x) :
    m.readBytes a n = m'.readBytes a n := by
  induction n generalizing a with
  | zero => rfl
  | succ n ih =>
    simp only [Memory.readBytes]
    rw [h a (by omega) (by omega), ih fun x h1 h2 => h x (by omega) (by omega)]

/-- Bytes written read back. -/
theorem Memory.readBytes_writeBytes (m : Memory) (a : Nat) (bs : List Byte) :
    (m.writeBytes a bs).readBytes a bs.length = bs := by
  apply List.ext_getElem
  · simp
  · intro k h1 h2
    rw [Memory.readBytes_getElem, Memory.read_writeBytes_inside _ _ _ h2]

theorem Memory.writeBytes_append (m : Memory) (a : Nat) (xs ys : List Byte) :
    m.writeBytes a (xs ++ ys) = (m.writeBytes a xs).writeBytes (a + xs.length) ys := by
  induction xs generalizing m a with
  | nil => rfl
  | cons x xs ih =>
    simp only [List.cons_append, Memory.writeBytes, List.length_cons]
    rw [ih]
    congr 1
    omega

theorem Memory.readBytes_add (m : Memory) (a n k : Nat) :
    m.readBytes a (n + k) = m.readBytes a n ++ m.readBytes (a + n) k := by
  induction n generalizing a with
  | zero => simp [Memory.readBytes]
  | succ n ih =>
    rw [show n + 1 + k = (n + k) + 1 by omega]
    simp only [Memory.readBytes, List.cons_append]
    rw [ih]
    congr 3
    omega

/-! ## The canonical form -/

theorem Memory.wf_iff (m : Memory) : m.wf = true ↔ m.Pairwise fun c d => c.1 < d.1 := by
  simp [Memory.wf, Memory.unlisted]

theorem Memory.mem_write {m : Memory} {x : Nat} {v : Byte} {c : Host.Cell} (h : c ∈ m.write x v) :
    c = (x, v) ∨ c ∈ m := by
  induction m with
  | nil => simpa [Memory.write] using h
  | cons d m ih =>
    simp only [Memory.write] at h
    split at h
    · simpa using h
    · split at h
      · rcases List.mem_cons.1 h with h | h
        · exact .inl h
        · exact .inr (List.mem_cons_of_mem _ h)
      · rcases List.mem_cons.1 h with h | h
        · exact .inr (h ▸ List.mem_cons_self)
        · exact (ih h).imp_right (List.mem_cons_of_mem _)

/-- A write keeps the canonical form. -/
theorem Memory.wf_write {m : Memory} (h : m.wf = true) (x : Nat) (v : Byte) : (m.write x v).wf = true := by
  rw [Memory.wf_iff] at h ⊢
  induction m with
  | nil => simp [Memory.write]
  | cons d m ih =>
    obtain ⟨hd, hm⟩ := List.pairwise_cons.1 h
    simp only [Memory.write]
    split
    · next hx =>
      refine List.pairwise_cons.2 ⟨fun c hc => ?_, h⟩
      rcases List.mem_cons.1 hc with rfl | hc
      · exact hx
      · exact Nat.lt_trans hx (hd c hc)
    · split
      · next hx => exact List.pairwise_cons.2 ⟨fun c hc => hx ▸ hd c hc, hm⟩
      · refine List.pairwise_cons.2 ⟨fun c hc => ?_, ih hm⟩
        rcases Memory.mem_write hc with rfl | hc
        · simp only; omega
        · exact hd c hc

/-- A wide write keeps the canonical form. -/
theorem Memory.wf_writeBytes {m : Memory} (h : m.wf = true) (a : Nat) (bs : List Byte) :
    (m.writeBytes a bs).wf = true := by
  induction bs generalizing m a with
  | nil => exact h
  | cons b bs ih => exact ih (Memory.wf_write h a b) _

theorem Memory.mem_writeBytes {m : Memory} {a : Nat} {bs : List Byte} {c : Host.Cell} (h : c ∈ m.writeBytes a bs) :
    (a ≤ c.1 ∧ c.1 < a + bs.length) ∨ c ∈ m := by
  induction bs generalizing m a with
  | nil => exact .inr h
  | cons b bs ih =>
    rcases ih h with h | h
    · exact .inl ⟨by omega, by simp only [List.length_cons]; omega⟩
    · rcases Memory.mem_write h with rfl | h
      · exact .inl ⟨Nat.le_refl _, by simp⟩
      · exact .inr h

theorem Memory.lookup_of_lt {m : Memory} {x : Nat} (h : ∀ c ∈ m, x < c.1) : m.lookup x = none := by
  induction m with
  | nil => rfl
  | cons c m ih =>
    have hc := h c List.mem_cons_self
    rw [Memory.lookup_cons, if_neg (by omega), ih fun d hd => h d (List.mem_cons_of_mem _ hd)]

/-- Canonical memories that hold the same bytes are the same list. -/
theorem Memory.ext_of_wf {m m' : Memory} (h : m.wf = true) (h' : m'.wf = true)
    (e : ∀ x, m.lookup x = m'.lookup x) : m = m' := by
  rw [Memory.wf_iff] at h h'
  induction m generalizing m' with
  | nil =>
    cases m' with
    | nil => rfl
    | cons d m' => simpa [Memory.lookup_cons] using e d.1
  | cons c m ih =>
    cases m' with
    | nil => simpa [Memory.lookup_cons] using e c.1
    | cons d m' =>
      obtain ⟨hc, hm⟩ := List.pairwise_cons.1 h
      obtain ⟨hd, hm'⟩ := List.pairwise_cons.1 h'
      have key : c.1 = d.1 := by
        rcases Nat.lt_trichotomy c.1 d.1 with hlt | heq | hgt
        · have := e c.1
          rw [Memory.lookup_cons, if_pos rfl, Memory.lookup_cons, if_neg (by omega),
            Memory.lookup_of_lt fun x hx => Nat.lt_trans hlt (hd x hx)] at this
          simp at this
        · exact heq
        · have := e d.1
          rw [Memory.lookup_cons d, if_pos rfl, Memory.lookup_cons, if_neg (by omega),
            Memory.lookup_of_lt fun x hx => Nat.lt_trans hgt (hc x hx)] at this
          simp at this
      have ec : c = d := by
        have := e c.1
        rw [Memory.lookup_cons, if_pos rfl, Memory.lookup_cons, if_pos key.symm] at this
        exact Prod.ext key (Option.some.inj this)
      subst ec
      congr 1
      refine ih hm hm' fun x => ?_
      have := e x
      rw [Memory.lookup_cons, Memory.lookup_cons] at this
      by_cases hx : c.1 = x
      · subst hx
        rw [Memory.lookup_of_lt hc, Memory.lookup_of_lt hd]
      · rwa [if_neg hx, if_neg hx] at this

/-! ## Regions and free bytes -/

theorem Region.contains_iff (r : Region) (a : Nat) : r.contains a = true ↔ r.start ≤ a ∧ a < r.start + r.size := by
  simp [Region.contains]

theorem Region.inRange_iff (n : Nat) (r : Region) : r.inRange n = true ↔ r.size = 0 ∨ r.start + r.size ≤ n := by
  simp [Region.inRange]

theorem Region.overlaps_iff (r q : Region) :
    r.overlaps q = true ↔ 0 < r.size ∧ 0 < q.size ∧ r.start < q.start + q.size ∧ q.start < r.start + r.size := by
  simp [Region.overlaps, and_assoc]

/-- Two regions overlap exactly when they share an address. -/
theorem Region.overlaps_iff_shared (r q : Region) :
    r.overlaps q = true ↔ ∃ a, r.contains a = true ∧ q.contains a = true := by
  simp only [Region.overlaps_iff, Region.contains_iff]
  constructor
  · rintro ⟨h1, h2, h3, h4⟩
    exact ⟨max r.start q.start, by omega, by omega⟩
  · rintro ⟨a, h1, h2⟩
    omega

@[simp] theorem Region.empty_contains (a : Nat) : Region.empty.contains a = false := by
  simp [Region.empty, Region.contains]

@[simp] theorem Region.overlaps_empty (r : Region) : r.overlaps Region.empty = false := by
  simp [Region.overlaps, Region.empty]

@[simp] theorem freeBytes_length (base n : Nat) : (freeBytes base n).length = n := by
  induction n generalizing base with
  | zero => rfl
  | succ n ih => simp [freeBytes, ih]

theorem freeBytes_getElem (base n k : Nat) (h : k < (freeBytes base n).length) :
    (freeBytes base n)[k] = Config.drawByte (base + k) := by
  induction n generalizing base k with
  | zero => simp [freeBytes] at h
  | succ n ih =>
    cases k with
    | zero => rfl
    | succ k =>
      simp only [freeBytes, List.getElem_cons_succ]
      rw [ih]
      congr 1
      omega

/-! ## The state's operations -/

/-- What `finishBytes` leaves outside the bytes it writes. -/
theorem State.finishBytes_readByte_outside (s : State) (a : Nat) (bs : List Byte) {y : Nat}
    (h : ¬ (a ≤ y ∧ y < a + bs.length)) : (s.finishBytes a bs).readByte y = s.readByte y :=
  Memory.read_writeBytes_outside _ _ _ h

/-- What a scramble leaves outside its region. -/
theorem State.scramble_readByte_outside (s : State) (r : Region) {y : Nat}
    (h : r.contains y = false) : (s.scramble r).readByte y = s.readByte y := by
  refine Memory.read_writeBytes_outside _ _ _ ?_
  rw [freeBytes_length]
  intro h'
  rw [(Region.contains_iff r y).2 h'] at h
  cases h

/-- What a scramble leaves in its region: a free byte for each address. -/
theorem State.scramble_readByte_inside (s : State) (r : Region) {k : Nat} (h : k < r.size) :
    (s.scramble r).readByte (r.start + k) = Config.drawByte (s.draws + k) := by
  have hk : k < (freeBytes s.draws r.size).length := by simpa using h
  exact (Memory.read_writeBytes_inside _ _ _ hk).trans (freeBytes_getElem _ _ _ hk)

/-- What a host memory read returns: as many bytes as were asked for. -/
@[simp] theorem State.observe_length (s : State) (w : Region) (a base n : Nat) : (s.observe w a base n).length = n := by
  induction n generalizing a base with
  | zero => rfl
  | succ n ih => simp [State.observe, ih]

/-- A byte of the region `w` is a free byte, every other one the byte of the memory (20_memory.md R61, R50). -/
theorem State.observe_getElem (s : State) (w : Region) (a base n k : Nat) (h : k < (s.observe w a base n).length) :
    (s.observe w a base n)[k] =
      if w.contains (a + k) then Config.drawByte (base + k) else s.readByte (a + k) := by
  induction n generalizing a base k with
  | zero => simp [State.observe] at h
  | succ n ih =>
    cases k with
    | zero => simp [State.observe]
    | succ k =>
      simp only [State.observe, List.getElem_cons_succ]
      rw [ih, show a + 1 + k = a + (k + 1) by omega, show base + 1 + k = base + (k + 1) by omega]

/-- Every operation of the state that writes memory keeps the canonical form, and reset's memory has it. -/
theorem State.writeBytes_wf {s : State} (h : s.mem.wf = true) (a : Nat) (bs : List Byte) : (s.writeBytes a bs).mem.wf = true :=
  Memory.wf_writeBytes h a bs

theorem State.scramble_wf {s : State} (h : s.mem.wf = true) (r : Region) : (s.scramble r).mem.wf = true :=
  Memory.wf_writeBytes h _ _

theorem State.finishBytes_wf {s : State} (h : s.mem.wf = true) (a : Nat) (bs : List Byte) :
    (s.finishBytes a bs).mem.wf = true := Memory.wf_writeBytes h _ _

theorem State.hostMemWrite_wf {s : State} (h : s.mem.wf = true) (a : Nat) (bs : List Byte) :
    (s.hostMemWrite a bs).mem.wf = true := Memory.wf_writeBytes h _ _

theorem State.reset_wf : State.reset.mem.wf = true := by decide

end Sys2Proof.Machine
end

