-- ==== Sys2Proof/Laws/Packing.lean ====
section
/-! SUPPORT. The bit packing functions and data formats as plain concatenations (44_bit_pack_unpack.md R160 to R165,
30_encoding.md R74): one lemma per function, so that no later proof sees a shift or a mask. -/

namespace Sys2Proof.Machine

/-- Two fields put together by a shift and an or. -/
theorem or_shift_eq_append {n m : Nat} (w : Nat) (a : BitVec n) (b : BitVec m) :
    ((a.setWidth w <<< m) ||| b.setWidth w) = (a ++ b).setWidth w := by
  apply BitVec.eq_of_getLsbD_eq
  intro i hi
  simp only [BitVec.getLsbD_or, BitVec.getLsbD_shiftLeft, BitVec.getLsbD_setWidth, BitVec.getLsbD_append]
  by_cases h : i < m
  · simp [h]
  · have : i - m < w := by omega
    simp [h, hi, this, BitVec.getLsbD_of_ge b i (by omega)]

theorem pack24_eq_append (g : Bytes3) : pack24 g = g.b0 ++ g.b1 ++ g.b2 := by
  apply BitVec.eq_of_getLsbD_eq
  intro i hi
  simp only [pack24, BitVec.getLsbD_append]
  interval_cases i <;> simp

theorem join6_eq_append (f : Fields4) : join6 f = f.f0 ++ f.f1 ++ f.f2 ++ f.f3 := by
  apply BitVec.eq_of_getLsbD_eq
  intro i hi
  simp only [join6, BitVec.getLsbD_append]
  interval_cases i <;> simp

theorem join12_eq_append (hi lo : BitVec 12) : join12 hi lo = hi ++ lo := by
  rw [join12, or_shift_eq_append]; exact BitVec.setWidth_eq _

theorem pidx_eq_append (c0 c1 : Byte) : pidx c0 c1 = c0 ++ c1 := by
  rw [pidx, or_shift_eq_append]; exact BitVec.setWidth_eq _

theorem pairForward_eq_append (i : BitVec 12) :
    pairForward i = forward (i.extractLsb' 6 6) ++ forward (i.extractLsb' 0 6) := by
  rw [pairForward, or_shift_eq_append]; exact BitVec.setWidth_eq _

/-- The four fields of a group, each the top of what is left (R162). -/
theorem split6_pack24 (g : Bytes3) :
    split6 (pack24 g) =
      ⟨g.b0.extractLsb' 2 6, g.b0.extractLsb' 0 2 ++ g.b1.extractLsb' 4 4,
        g.b1.extractLsb' 0 4 ++ g.b2.extractLsb' 6 2, g.b2.extractLsb' 0 6⟩ := by
  rw [pack24_eq_append]
  simp only [split6, Fields4.mk.injEq]
  refine ⟨?_, ?_, ?_, ?_⟩ <;> (apply BitVec.eq_of_getLsbD_eq; intro i hi; simp only [BitVec.getLsbD_append, BitVec.getLsbD_extractLsb']; interval_cases i <;> simp)

/-- The three bytes of four fields (R161, R163). -/
theorem unpack24_join6 (f : Fields4) :
    unpack24 (join6 f) =
      ⟨(f.f0 ++ f.f1).extractLsb' 4 8, (f.f1 ++ f.f2).extractLsb' 2 8, (f.f2 ++ f.f3).extractLsb' 0 8⟩ := by
  rw [join6_eq_append]
  simp only [unpack24, Bytes3.mk.injEq]
  refine ⟨?_, ?_, ?_⟩ <;> (apply BitVec.eq_of_getLsbD_eq; intro i hi; simp only [BitVec.getLsbD_append, BitVec.getLsbD_extractLsb']; interval_cases i <;> simp)

/-- The three bytes of two halves (R161, R165). -/
theorem unpack24_join12 (hi lo : BitVec 12) :
    unpack24 (join12 hi lo) =
      ⟨hi.extractLsb' 4 8, hi.extractLsb' 0 4 ++ lo.extractLsb' 8 4, lo.extractLsb' 0 8⟩ := by
  rw [join12_eq_append]
  simp only [unpack24, Bytes3.mk.injEq]
  refine ⟨?_, ?_, ?_⟩ <;> (apply BitVec.eq_of_getLsbD_eq; intro i hi; simp only [BitVec.getLsbD_append, BitVec.getLsbD_extractLsb']; interval_cases i <;> simp)

end Sys2Proof.Machine
end

