-- ==== Sys2Proof/Laws/Rom.lean ====
section
/-! SUPPORT. The ROM's ways and the encoder's and decoder's functions over them, one spec lemma each. -/

namespace Sys2Proof.Machine

/-- REVERSE's alphabet entries undo FORWARD (43_lookup_rom.md R144). -/
@[simp] theorem alphaValue_forward (v : BitVec 6) : alphaValue (forward v) = some v := by
  revert v; decide

/-- An alphabet byte is the FORWARD entry of its value (43_lookup_rom.md R144). -/
theorem forward_of_alphaValue {c : Byte} {v : BitVec 6} (h : alphaValue c = some v) : forward v = c := by
  have key : ∀ c : Byte, (alphaValue c).all (fun v => forward v == c) = true := by decide
  have := key c
  rw [h] at this
  simpa using this

theorem reverse_of_alphaValue {c : Byte} {v : BitVec 6} (h : alphaValue c = some v) : reverse c = v := by
  simp [reverse, h]

/-- PAIR_REVERSE at a pair of bytes (43_lookup_rom.md R146, R147). -/
theorem pairReverse_append (c0 c1 : Byte) :
    pairReverse (c0 ++ c1) =
      match alphaValue c0, alphaValue c1 with
      | some v0, some v1 => v0 ++ v1
      | _, _ => Config.prevInvalid (c0 ++ c1) := by
  have h0 : (c0 ++ c1).extractLsb' 8 8 = c0 := by
    apply BitVec.eq_of_getLsbD_eq; intro i hi; simp only [BitVec.getLsbD_append, BitVec.getLsbD_extractLsb']; interval_cases i <;> simp
  have h1 : (c0 ++ c1).extractLsb' 0 8 = c1 := by
    apply BitVec.eq_of_getLsbD_eq; intro i hi; simp only [BitVec.getLsbD_append, BitVec.getLsbD_extractLsb']; interval_cases i <;> simp
  unfold pairReverse
  rw [h0, h1]
  cases alphaValue c0 <;> cases alphaValue c1 <;> try rfl
  exact (or_shift_eq_append 12 _ _).trans (BitVec.setWidth_eq _)

/-- The full group through two pair lookups (41_encoder.md R100). -/
theorem encGroup_eq (g : Bytes3) :
    encGroup g =
      ⟨forward (g.b0.extractLsb' 2 6), forward (g.b0.extractLsb' 0 2 ++ g.b1.extractLsb' 4 4),
        forward (g.b1.extractLsb' 0 4 ++ g.b2.extractLsb' 6 2), forward (g.b2.extractLsb' 0 6)⟩ := by
  have hf := split6_pack24 g
  simp only [split6, Fields4.mk.injEq] at hf
  obtain ⟨h0, h1, h2, h3⟩ := hf
  have e : ∀ a b : Byte, (a ++ b).extractLsb' 8 8 = a ∧ (a ++ b).extractLsb' 0 8 = b := by
    intro a b
    constructor <;> (apply BitVec.eq_of_getLsbD_eq; intro i hi; simp only [BitVec.getLsbD_append, BitVec.getLsbD_extractLsb']; interval_cases i <;> simp)
  have x : ∀ (v : BitVec 24) (i j : Nat), i + 6 ≤ 12 → (v.extractLsb' j 12).extractLsb' i 6 = v.extractLsb' (j + i) 6 := by
    intro v i j hij
    apply BitVec.eq_of_getLsbD_eq
    intro k hk
    simp only [BitVec.getLsbD_extractLsb', hk, decide_true, Bool.true_and]
    rw [decide_eq_true (by omega), Bool.true_and, Nat.add_assoc]
  simp only [encGroup, split12, pairForward_eq_append, (e _ _).1, (e _ _).2]
  rw [x _ 6 12 (by omega), x _ 0 12 (by omega), x _ 6 0 (by omega), x _ 0 0 (by omega), ← h0, ← h1, ← h2, ← h3]

/-- The tail of one byte (41_encoder.md R101). -/
theorem encTail1_eq (b0 : Byte) :
    encTail1 b0 = ⟨forward (b0.extractLsb' 2 6), forward (b0.extractLsb' 0 2 ++ 0#4), padChar, padChar⟩ := by
  have h0 : (b0 >>> 2).setWidth 6 = b0.extractLsb' 2 6 := by
    apply BitVec.eq_of_getLsbD_eq; intro i hi; interval_cases i <;> simp
  have h1 : ((b0 &&& 0x3) <<< 4).setWidth 6 = b0.extractLsb' 0 2 ++ 0#4 := by
    apply BitVec.eq_of_getLsbD_eq; intro i hi; simp only [BitVec.getLsbD_append, BitVec.getLsbD_extractLsb']; interval_cases i <;> simp
  rw [encTail1, h0, h1]

/-- The tail of two bytes (41_encoder.md R102). -/
theorem encTail2_eq (b0 b1 : Byte) :
    encTail2 b0 b1 =
      ⟨forward (b0.extractLsb' 2 6), forward (b0.extractLsb' 0 2 ++ b1.extractLsb' 4 4),
        forward (b1.extractLsb' 0 4 ++ 0#2), padChar⟩ := by
  have h0 : (b0 >>> 2).setWidth 6 = b0.extractLsb' 2 6 := by
    apply BitVec.eq_of_getLsbD_eq; intro i hi; interval_cases i <;> simp
  have h1 : (((b0 &&& 0x3) <<< 4) ||| (b1 >>> 4)).setWidth 6 = b0.extractLsb' 0 2 ++ b1.extractLsb' 4 4 := by
    apply BitVec.eq_of_getLsbD_eq; intro i hi; simp only [BitVec.getLsbD_append, BitVec.getLsbD_extractLsb']; interval_cases i <;> simp
  have h2 : ((b1 &&& 0xF) <<< 2).setWidth 6 = b1.extractLsb' 0 4 ++ 0#2 := by
    apply BitVec.eq_of_getLsbD_eq; intro i hi; simp only [BitVec.getLsbD_append, BitVec.getLsbD_extractLsb']; interval_cases i <;> simp
  rw [encTail2, h0, h1, h2]

/-- The length of the text (41_encoder.md R103). -/
theorem encodeBytes_length (bs : List Byte) : (encodeBytes bs).length = encodedLength bs.length := by
  induction bs using encodeBytes.induct with
  | case1 => rfl
  | case2 b0 => simp [encodeBytes, Chars4.toList, encodedLength, ceilDiv]
  | case3 b0 b1 => simp [encodeBytes, Chars4.toList, encodedLength, ceilDiv]
  | case4 b0 b1 b2 rest ih =>
    simp only [encodeBytes, List.length_append, ih, Chars4.toList, List.length_cons, List.length_nil, encodedLength, ceilDiv]
    omega

theorem decFinal_length (g : Chars4) : (decFinal g).length = validCount g := by
  unfold decFinal validCount
  split
  · rfl
  · split <;> rfl

theorem validCount_bounds (g : Chars4) : 1 ≤ validCount g ∧ validCount g ≤ 3 := by
  unfold validCount
  split
  · omega
  · split <;> omega

/-- A text shorter than a group decodes to nothing (42_decoder.md R121). -/
theorem decodeChars_short {ts : List Byte} (h : ts.length < 4) : decodeChars ts = [] := by
  match ts, h with
  | [], _ => rfl
  | [_], _ => rfl
  | [_, _], _ => rfl
  | [_, _, _], _ => rfl

/-- A group that is not the last one (42_decoder.md R123). -/
theorem decodeChars_cons {c0 c1 c2 c3 : Byte} {rest : List Byte} (h : rest ≠ []) :
    decodeChars (c0 :: c1 :: c2 :: c3 :: rest) = (decGroup ⟨c0, c1, c2, c3⟩).toList ++ decodeChars rest := by
  cases rest with
  | nil => exact absurd rfl h
  | cons d rest => rfl

/-- The length of the decoded bytes of whole groups (42_decoder.md R129), `g + 1` of them, over the last group. -/
theorem decodeChars_length (m : Memory) (a g : Nat) :
    (decodeChars (m.readBytes a (4 * (g + 1)))).length = 3 * g + validCount (m.readChars4 (a + 4 * g)) := by
  induction g generalizing a with
  | zero => simp [Memory.readBytes, decodeChars, decFinal_length, Memory.readChars4]
  | succ g ih =>
    rw [show 4 * (g + 1 + 1) = (4 * (g + 1)) + 1 + 1 + 1 + 1 by omega]
    simp only [Memory.readBytes]
    rw [decodeChars_cons (by rw [show 4 * (g + 1) = 4 * g + 3 + 1 by omega]; simp [Memory.readBytes])]
    rw [List.length_append, ih]
    simp only [Bytes3.toList, List.length_cons, List.length_nil]
    rw [show a + 1 + 1 + 1 + 1 + 4 * g = a + 4 * (g + 1) by omega]
    omega

end Sys2Proof.Machine
end

