-- ==== Sys2Proof/Laws/State.lean ====
section
/-! SUPPORT. What each shared update of the state does to each field: one lemma per field per update. -/

namespace Sys2Proof.Machine

variable (s : State)

/-! ### `writeStatus` -/

@[simp] theorem State.writeStatus_cmd (v : Word) : (s.writeStatus v).cmd = s.cmd := rfl
@[simp] theorem State.writeStatus_busy (v : Word) : (s.writeStatus v).busy = s.busy := rfl
@[simp] theorem State.writeStatus_done (v : Word) : (s.writeStatus v).done = (s.done && !v.getLsbD 1) := rfl
@[simp] theorem State.writeStatus_err (v : Word) : (s.writeStatus v).err = (s.err && !v.getLsbD 2) := rfl
@[simp] theorem State.writeStatus_wbusy (v : Word) : (s.writeStatus v).wbusy = (s.wbusy && !v.getLsbD 3) := rfl
@[simp] theorem State.writeStatus_errcode (v : Word) : (s.writeStatus v).errcode = (if v.getLsbD 2 then 0 else s.errcode) := rfl
@[simp] theorem State.writeStatus_doneIe (v : Word) : (s.writeStatus v).doneIe = s.doneIe := rfl
@[simp] theorem State.writeStatus_src (v : Word) : (s.writeStatus v).src = s.src := rfl
@[simp] theorem State.writeStatus_dst (v : Word) : (s.writeStatus v).dst = s.dst := rfl
@[simp] theorem State.writeStatus_len (v : Word) : (s.writeStatus v).len = s.len := rfl
@[simp] theorem State.writeStatus_din (v : Word) : (s.writeStatus v).din = s.din := rfl
@[simp] theorem State.writeStatus_dout (v : Word) : (s.writeStatus v).dout = s.dout := rfl
@[simp] theorem State.writeStatus_rlen (v : Word) : (s.writeStatus v).rlen = s.rlen := rfl
@[simp] theorem State.writeStatus_mem (v : Word) : (s.writeStatus v).mem = s.mem := rfl
@[simp] theorem State.writeStatus_rst (v : Word) : (s.writeStatus v).rst = s.rst := rfl
@[simp] theorem State.writeStatus_lastAddr (v : Word) : (s.writeStatus v).lastAddr = s.lastAddr := rfl
@[simp] theorem State.writeStatus_hazard (v : Word) : (s.writeStatus v).hazard = s.hazard := rfl
@[simp] theorem State.writeStatus_disturbed (v : Word) : (s.writeStatus v).disturbed = s.disturbed := rfl
@[simp] theorem State.writeStatus_draws (v : Word) : (s.writeStatus v).draws = s.draws := rfl
@[simp] theorem State.writeStatus_inputs (v : Word) : (s.writeStatus v).inputs = s.inputs := rfl
@[simp] theorem State.writeStatus_reply (v : Word) : (s.writeStatus v).reply = s.reply := rfl
@[simp] theorem State.writeStatus_memSize (v : Word) : (s.writeStatus v).memSize = s.memSize := rfl

/-! ### `writeIrqen` -/

@[simp] theorem State.writeIrqen_cmd (v : Word) : (s.writeIrqen v).cmd = s.cmd := rfl
@[simp] theorem State.writeIrqen_busy (v : Word) : (s.writeIrqen v).busy = s.busy := rfl
@[simp] theorem State.writeIrqen_done (v : Word) : (s.writeIrqen v).done = s.done := rfl
@[simp] theorem State.writeIrqen_err (v : Word) : (s.writeIrqen v).err = s.err := rfl
@[simp] theorem State.writeIrqen_wbusy (v : Word) : (s.writeIrqen v).wbusy = s.wbusy := rfl
@[simp] theorem State.writeIrqen_errcode (v : Word) : (s.writeIrqen v).errcode = s.errcode := rfl
@[simp] theorem State.writeIrqen_doneIe (v : Word) : (s.writeIrqen v).doneIe = v.getLsbD 0 := rfl
@[simp] theorem State.writeIrqen_src (v : Word) : (s.writeIrqen v).src = s.src := rfl
@[simp] theorem State.writeIrqen_dst (v : Word) : (s.writeIrqen v).dst = s.dst := rfl
@[simp] theorem State.writeIrqen_len (v : Word) : (s.writeIrqen v).len = s.len := rfl
@[simp] theorem State.writeIrqen_din (v : Word) : (s.writeIrqen v).din = s.din := rfl
@[simp] theorem State.writeIrqen_dout (v : Word) : (s.writeIrqen v).dout = s.dout := rfl
@[simp] theorem State.writeIrqen_rlen (v : Word) : (s.writeIrqen v).rlen = s.rlen := rfl
@[simp] theorem State.writeIrqen_mem (v : Word) : (s.writeIrqen v).mem = s.mem := rfl
@[simp] theorem State.writeIrqen_rst (v : Word) : (s.writeIrqen v).rst = s.rst := rfl
@[simp] theorem State.writeIrqen_lastAddr (v : Word) : (s.writeIrqen v).lastAddr = s.lastAddr := rfl
@[simp] theorem State.writeIrqen_hazard (v : Word) : (s.writeIrqen v).hazard = s.hazard := rfl
@[simp] theorem State.writeIrqen_disturbed (v : Word) : (s.writeIrqen v).disturbed = s.disturbed := rfl
@[simp] theorem State.writeIrqen_draws (v : Word) : (s.writeIrqen v).draws = s.draws := rfl
@[simp] theorem State.writeIrqen_inputs (v : Word) : (s.writeIrqen v).inputs = s.inputs := rfl
@[simp] theorem State.writeIrqen_reply (v : Word) : (s.writeIrqen v).reply = s.reply := rfl
@[simp] theorem State.writeIrqen_memSize (v : Word) : (s.writeIrqen v).memSize = s.memSize := rfl

/-! ### `setWbusy` -/

@[simp] theorem State.setWbusy_cmd : s.setWbusy.cmd = s.cmd := rfl
@[simp] theorem State.setWbusy_busy : s.setWbusy.busy = s.busy := rfl
@[simp] theorem State.setWbusy_done : s.setWbusy.done = s.done := rfl
@[simp] theorem State.setWbusy_err : s.setWbusy.err = s.err := rfl
@[simp] theorem State.setWbusy_wbusy : s.setWbusy.wbusy = true := rfl
@[simp] theorem State.setWbusy_errcode : s.setWbusy.errcode = s.errcode := rfl
@[simp] theorem State.setWbusy_doneIe : s.setWbusy.doneIe = s.doneIe := rfl
@[simp] theorem State.setWbusy_src : s.setWbusy.src = s.src := rfl
@[simp] theorem State.setWbusy_dst : s.setWbusy.dst = s.dst := rfl
@[simp] theorem State.setWbusy_len : s.setWbusy.len = s.len := rfl
@[simp] theorem State.setWbusy_din : s.setWbusy.din = s.din := rfl
@[simp] theorem State.setWbusy_dout : s.setWbusy.dout = s.dout := rfl
@[simp] theorem State.setWbusy_rlen : s.setWbusy.rlen = s.rlen := rfl
@[simp] theorem State.setWbusy_mem : s.setWbusy.mem = s.mem := rfl
@[simp] theorem State.setWbusy_rst : s.setWbusy.rst = s.rst := rfl
@[simp] theorem State.setWbusy_lastAddr : s.setWbusy.lastAddr = s.lastAddr := rfl
@[simp] theorem State.setWbusy_hazard : s.setWbusy.hazard = s.hazard := rfl
@[simp] theorem State.setWbusy_disturbed : s.setWbusy.disturbed = s.disturbed := rfl
@[simp] theorem State.setWbusy_draws : s.setWbusy.draws = s.draws := rfl
@[simp] theorem State.setWbusy_inputs : s.setWbusy.inputs = s.inputs := rfl
@[simp] theorem State.setWbusy_reply : s.setWbusy.reply = s.reply := rfl
@[simp] theorem State.setWbusy_memSize : s.setWbusy.memSize = s.memSize := rfl

/-! ### `flagsAccepted` -/

@[simp] theorem State.flagsAccepted_cmd : s.flagsAccepted.cmd = s.cmd := rfl
@[simp] theorem State.flagsAccepted_busy : s.flagsAccepted.busy = true := rfl
@[simp] theorem State.flagsAccepted_done : s.flagsAccepted.done = false := rfl
@[simp] theorem State.flagsAccepted_err : s.flagsAccepted.err = false := rfl
@[simp] theorem State.flagsAccepted_wbusy : s.flagsAccepted.wbusy = s.wbusy := rfl
@[simp] theorem State.flagsAccepted_errcode : s.flagsAccepted.errcode = 0 := rfl
@[simp] theorem State.flagsAccepted_doneIe : s.flagsAccepted.doneIe = s.doneIe := rfl
@[simp] theorem State.flagsAccepted_src : s.flagsAccepted.src = s.src := rfl
@[simp] theorem State.flagsAccepted_dst : s.flagsAccepted.dst = s.dst := rfl
@[simp] theorem State.flagsAccepted_len : s.flagsAccepted.len = s.len := rfl
@[simp] theorem State.flagsAccepted_din : s.flagsAccepted.din = s.din := rfl
@[simp] theorem State.flagsAccepted_dout : s.flagsAccepted.dout = s.dout := rfl
@[simp] theorem State.flagsAccepted_rlen : s.flagsAccepted.rlen = s.rlen := rfl
@[simp] theorem State.flagsAccepted_mem : s.flagsAccepted.mem = s.mem := rfl
@[simp] theorem State.flagsAccepted_rst : s.flagsAccepted.rst = s.rst := rfl
@[simp] theorem State.flagsAccepted_lastAddr : s.flagsAccepted.lastAddr = s.lastAddr := rfl
@[simp] theorem State.flagsAccepted_hazard : s.flagsAccepted.hazard = s.hazard := rfl
@[simp] theorem State.flagsAccepted_disturbed : s.flagsAccepted.disturbed = s.disturbed := rfl
@[simp] theorem State.flagsAccepted_draws : s.flagsAccepted.draws = s.draws := rfl
@[simp] theorem State.flagsAccepted_inputs : s.flagsAccepted.inputs = s.inputs := rfl
@[simp] theorem State.flagsAccepted_reply : s.flagsAccepted.reply = s.reply := rfl
@[simp] theorem State.flagsAccepted_memSize : s.flagsAccepted.memSize = s.memSize := rfl

/-! ### `flagsCompleted` -/

@[simp] theorem State.flagsCompleted_cmd : s.flagsCompleted.cmd = s.cmd := rfl
@[simp] theorem State.flagsCompleted_busy : s.flagsCompleted.busy = false := rfl
@[simp] theorem State.flagsCompleted_done : s.flagsCompleted.done = true := rfl
@[simp] theorem State.flagsCompleted_err : s.flagsCompleted.err = s.err := rfl
@[simp] theorem State.flagsCompleted_wbusy : s.flagsCompleted.wbusy = s.wbusy := rfl
@[simp] theorem State.flagsCompleted_errcode : s.flagsCompleted.errcode = s.errcode := rfl
@[simp] theorem State.flagsCompleted_doneIe : s.flagsCompleted.doneIe = s.doneIe := rfl
@[simp] theorem State.flagsCompleted_src : s.flagsCompleted.src = s.src := rfl
@[simp] theorem State.flagsCompleted_dst : s.flagsCompleted.dst = s.dst := rfl
@[simp] theorem State.flagsCompleted_len : s.flagsCompleted.len = s.len := rfl
@[simp] theorem State.flagsCompleted_din : s.flagsCompleted.din = s.din := rfl
@[simp] theorem State.flagsCompleted_dout : s.flagsCompleted.dout = s.dout := rfl
@[simp] theorem State.flagsCompleted_rlen : s.flagsCompleted.rlen = s.rlen := rfl
@[simp] theorem State.flagsCompleted_mem : s.flagsCompleted.mem = s.mem := rfl
@[simp] theorem State.flagsCompleted_rst : s.flagsCompleted.rst = s.rst := rfl
@[simp] theorem State.flagsCompleted_lastAddr : s.flagsCompleted.lastAddr = s.lastAddr := rfl
@[simp] theorem State.flagsCompleted_hazard : s.flagsCompleted.hazard = s.hazard := rfl
@[simp] theorem State.flagsCompleted_disturbed : s.flagsCompleted.disturbed = s.disturbed := rfl
@[simp] theorem State.flagsCompleted_draws : s.flagsCompleted.draws = s.draws := rfl
@[simp] theorem State.flagsCompleted_inputs : s.flagsCompleted.inputs = s.inputs := rfl
@[simp] theorem State.flagsCompleted_reply : s.flagsCompleted.reply = s.reply := rfl
@[simp] theorem State.flagsCompleted_memSize : s.flagsCompleted.memSize = s.memSize := rfl

/-! ### `flagsError` -/

@[simp] theorem State.flagsError_cmd (e : CmdError) : (s.flagsError e).cmd = s.cmd := rfl
@[simp] theorem State.flagsError_busy (e : CmdError) : (s.flagsError e).busy = s.busy := rfl
@[simp] theorem State.flagsError_done (e : CmdError) : (s.flagsError e).done = s.done := rfl
@[simp] theorem State.flagsError_err (e : CmdError) : (s.flagsError e).err = true := rfl
@[simp] theorem State.flagsError_wbusy (e : CmdError) : (s.flagsError e).wbusy = s.wbusy := rfl
@[simp] theorem State.flagsError_errcode (e : CmdError) : (s.flagsError e).errcode = e.code := rfl
@[simp] theorem State.flagsError_doneIe (e : CmdError) : (s.flagsError e).doneIe = s.doneIe := rfl
@[simp] theorem State.flagsError_src (e : CmdError) : (s.flagsError e).src = s.src := rfl
@[simp] theorem State.flagsError_dst (e : CmdError) : (s.flagsError e).dst = s.dst := rfl
@[simp] theorem State.flagsError_len (e : CmdError) : (s.flagsError e).len = s.len := rfl
@[simp] theorem State.flagsError_din (e : CmdError) : (s.flagsError e).din = s.din := rfl
@[simp] theorem State.flagsError_dout (e : CmdError) : (s.flagsError e).dout = s.dout := rfl
@[simp] theorem State.flagsError_rlen (e : CmdError) : (s.flagsError e).rlen = s.rlen := rfl
@[simp] theorem State.flagsError_mem (e : CmdError) : (s.flagsError e).mem = s.mem := rfl
@[simp] theorem State.flagsError_rst (e : CmdError) : (s.flagsError e).rst = s.rst := rfl
@[simp] theorem State.flagsError_lastAddr (e : CmdError) : (s.flagsError e).lastAddr = s.lastAddr := rfl
@[simp] theorem State.flagsError_hazard (e : CmdError) : (s.flagsError e).hazard = s.hazard := rfl
@[simp] theorem State.flagsError_disturbed (e : CmdError) : (s.flagsError e).disturbed = s.disturbed := rfl
@[simp] theorem State.flagsError_draws (e : CmdError) : (s.flagsError e).draws = s.draws := rfl
@[simp] theorem State.flagsError_inputs (e : CmdError) : (s.flagsError e).inputs = s.inputs := rfl
@[simp] theorem State.flagsError_reply (e : CmdError) : (s.flagsError e).reply = s.reply := rfl
@[simp] theorem State.flagsError_memSize (e : CmdError) : (s.flagsError e).memSize = s.memSize := rfl

/-! ### `writeBytes` -/

@[simp] theorem State.writeBytes_cmd (a : Nat) (bs : List Byte) : (s.writeBytes a bs).cmd = s.cmd := rfl
@[simp] theorem State.writeBytes_busy (a : Nat) (bs : List Byte) : (s.writeBytes a bs).busy = s.busy := rfl
@[simp] theorem State.writeBytes_done (a : Nat) (bs : List Byte) : (s.writeBytes a bs).done = s.done := rfl
@[simp] theorem State.writeBytes_err (a : Nat) (bs : List Byte) : (s.writeBytes a bs).err = s.err := rfl
@[simp] theorem State.writeBytes_wbusy (a : Nat) (bs : List Byte) : (s.writeBytes a bs).wbusy = s.wbusy := rfl
@[simp] theorem State.writeBytes_errcode (a : Nat) (bs : List Byte) : (s.writeBytes a bs).errcode = s.errcode := rfl
@[simp] theorem State.writeBytes_doneIe (a : Nat) (bs : List Byte) : (s.writeBytes a bs).doneIe = s.doneIe := rfl
@[simp] theorem State.writeBytes_src (a : Nat) (bs : List Byte) : (s.writeBytes a bs).src = s.src := rfl
@[simp] theorem State.writeBytes_dst (a : Nat) (bs : List Byte) : (s.writeBytes a bs).dst = s.dst := rfl
@[simp] theorem State.writeBytes_len (a : Nat) (bs : List Byte) : (s.writeBytes a bs).len = s.len := rfl
@[simp] theorem State.writeBytes_din (a : Nat) (bs : List Byte) : (s.writeBytes a bs).din = s.din := rfl
@[simp] theorem State.writeBytes_dout (a : Nat) (bs : List Byte) : (s.writeBytes a bs).dout = s.dout := rfl
@[simp] theorem State.writeBytes_rlen (a : Nat) (bs : List Byte) : (s.writeBytes a bs).rlen = s.rlen := rfl
@[simp] theorem State.writeBytes_mem (a : Nat) (bs : List Byte) : (s.writeBytes a bs).mem = s.mem.writeBytes a bs := rfl
@[simp] theorem State.writeBytes_rst (a : Nat) (bs : List Byte) : (s.writeBytes a bs).rst = s.rst := rfl
@[simp] theorem State.writeBytes_lastAddr (a : Nat) (bs : List Byte) : (s.writeBytes a bs).lastAddr = s.lastAddr := rfl
@[simp] theorem State.writeBytes_hazard (a : Nat) (bs : List Byte) : (s.writeBytes a bs).hazard = s.hazard := rfl
@[simp] theorem State.writeBytes_disturbed (a : Nat) (bs : List Byte) : (s.writeBytes a bs).disturbed = s.disturbed := rfl
@[simp] theorem State.writeBytes_draws (a : Nat) (bs : List Byte) : (s.writeBytes a bs).draws = s.draws := rfl
@[simp] theorem State.writeBytes_inputs (a : Nat) (bs : List Byte) : (s.writeBytes a bs).inputs = s.inputs := rfl
@[simp] theorem State.writeBytes_reply (a : Nat) (bs : List Byte) : (s.writeBytes a bs).reply = s.reply := rfl
@[simp] theorem State.writeBytes_memSize (a : Nat) (bs : List Byte) : (s.writeBytes a bs).memSize = s.memSize := rfl

/-! ### `scramble` -/

@[simp] theorem State.scramble_cmd (r : Region) : (s.scramble r).cmd = s.cmd := rfl
@[simp] theorem State.scramble_busy (r : Region) : (s.scramble r).busy = s.busy := rfl
@[simp] theorem State.scramble_done (r : Region) : (s.scramble r).done = s.done := rfl
@[simp] theorem State.scramble_err (r : Region) : (s.scramble r).err = s.err := rfl
@[simp] theorem State.scramble_wbusy (r : Region) : (s.scramble r).wbusy = s.wbusy := rfl
@[simp] theorem State.scramble_errcode (r : Region) : (s.scramble r).errcode = s.errcode := rfl
@[simp] theorem State.scramble_doneIe (r : Region) : (s.scramble r).doneIe = s.doneIe := rfl
@[simp] theorem State.scramble_src (r : Region) : (s.scramble r).src = s.src := rfl
@[simp] theorem State.scramble_dst (r : Region) : (s.scramble r).dst = s.dst := rfl
@[simp] theorem State.scramble_len (r : Region) : (s.scramble r).len = s.len := rfl
@[simp] theorem State.scramble_din (r : Region) : (s.scramble r).din = s.din := rfl
@[simp] theorem State.scramble_dout (r : Region) : (s.scramble r).dout = s.dout := rfl
@[simp] theorem State.scramble_rlen (r : Region) : (s.scramble r).rlen = s.rlen := rfl
@[simp] theorem State.scramble_mem (r : Region) : (s.scramble r).mem = s.mem.writeBytes r.start (freeBytes s.draws r.size) := rfl
@[simp] theorem State.scramble_rst (r : Region) : (s.scramble r).rst = s.rst := rfl
@[simp] theorem State.scramble_lastAddr (r : Region) : (s.scramble r).lastAddr = s.lastAddr := rfl
@[simp] theorem State.scramble_hazard (r : Region) : (s.scramble r).hazard = s.hazard := rfl
@[simp] theorem State.scramble_disturbed (r : Region) : (s.scramble r).disturbed = s.disturbed := rfl
@[simp] theorem State.scramble_draws (r : Region) : (s.scramble r).draws = s.draws + r.size := rfl
@[simp] theorem State.scramble_inputs (r : Region) : (s.scramble r).inputs = s.inputs := rfl
@[simp] theorem State.scramble_reply (r : Region) : (s.scramble r).reply = s.reply := rfl
@[simp] theorem State.scramble_memSize (r : Region) : (s.scramble r).memSize = s.memSize := rfl

/-! ### `accept` -/

@[simp] theorem State.accept_cmd (w : Word) : (s.accept w).cmd = w := rfl
@[simp] theorem State.accept_busy (w : Word) : (s.accept w).busy = true := rfl
@[simp] theorem State.accept_done (w : Word) : (s.accept w).done = false := rfl
@[simp] theorem State.accept_err (w : Word) : (s.accept w).err = false := rfl
@[simp] theorem State.accept_wbusy (w : Word) : (s.accept w).wbusy = s.wbusy := rfl
@[simp] theorem State.accept_errcode (w : Word) : (s.accept w).errcode = 0 := rfl
@[simp] theorem State.accept_doneIe (w : Word) : (s.accept w).doneIe = s.doneIe := rfl
@[simp] theorem State.accept_src (w : Word) : (s.accept w).src = s.src := rfl
@[simp] theorem State.accept_dst (w : Word) : (s.accept w).dst = s.dst := rfl
@[simp] theorem State.accept_len (w : Word) : (s.accept w).len = s.len := rfl
@[simp] theorem State.accept_din (w : Word) : (s.accept w).din = s.din := rfl
@[simp] theorem State.accept_dout (w : Word) : (s.accept w).dout = s.dout := rfl
@[simp] theorem State.accept_rlen (w : Word) : (s.accept w).rlen = s.rlen := rfl
@[simp] theorem State.accept_mem (w : Word) : (s.accept w).mem = s.mem := rfl
@[simp] theorem State.accept_rst (w : Word) : (s.accept w).rst = s.rst := rfl
@[simp] theorem State.accept_lastAddr (w : Word) : (s.accept w).lastAddr = s.lastAddr := rfl
@[simp] theorem State.accept_hazard (w : Word) : (s.accept w).hazard = s.hazard := rfl
@[simp] theorem State.accept_disturbed (w : Word) : (s.accept w).disturbed = false := rfl
@[simp] theorem State.accept_draws (w : Word) : (s.accept w).draws = s.draws := rfl
@[simp] theorem State.accept_inputs (w : Word) : (s.accept w).inputs = s.inputs := rfl
@[simp] theorem State.accept_reply (w : Word) : (s.accept w).reply = s.reply := rfl
@[simp] theorem State.accept_memSize (w : Word) : (s.accept w).memSize = s.memSize := rfl

/-! ### `finish` -/

@[simp] theorem State.finish_cmd : s.finish.cmd = s.cmd := rfl
@[simp] theorem State.finish_busy : s.finish.busy = false := rfl
@[simp] theorem State.finish_done : s.finish.done = true := rfl
@[simp] theorem State.finish_err : s.finish.err = s.err := rfl
@[simp] theorem State.finish_wbusy : s.finish.wbusy = s.wbusy := rfl
@[simp] theorem State.finish_errcode : s.finish.errcode = s.errcode := rfl
@[simp] theorem State.finish_doneIe : s.finish.doneIe = s.doneIe := rfl
@[simp] theorem State.finish_src : s.finish.src = s.src := rfl
@[simp] theorem State.finish_dst : s.finish.dst = s.dst := rfl
@[simp] theorem State.finish_len : s.finish.len = s.len := rfl
@[simp] theorem State.finish_din : s.finish.din = s.din := rfl
@[simp] theorem State.finish_dout : s.finish.dout = s.dout := rfl
@[simp] theorem State.finish_rlen : s.finish.rlen = s.rlen := rfl
@[simp] theorem State.finish_mem : s.finish.mem = s.mem := rfl
@[simp] theorem State.finish_rst : s.finish.rst = s.rst := rfl
@[simp] theorem State.finish_lastAddr : s.finish.lastAddr = s.lastAddr := rfl
@[simp] theorem State.finish_hazard : s.finish.hazard = s.hazard := rfl
@[simp] theorem State.finish_disturbed : s.finish.disturbed = s.disturbed := rfl
@[simp] theorem State.finish_draws : s.finish.draws = s.draws := rfl
@[simp] theorem State.finish_inputs : s.finish.inputs = s.inputs := rfl
@[simp] theorem State.finish_reply : s.finish.reply = s.reply := rfl
@[simp] theorem State.finish_memSize : s.finish.memSize = s.memSize := rfl

/-! ### `raise` -/

@[simp] theorem State.raise_cmd (e : CmdError) : (s.raise e).cmd = s.cmd := rfl
@[simp] theorem State.raise_busy (e : CmdError) : (s.raise e).busy = false := rfl
@[simp] theorem State.raise_done (e : CmdError) : (s.raise e).done = true := rfl
@[simp] theorem State.raise_err (e : CmdError) : (s.raise e).err = true := rfl
@[simp] theorem State.raise_wbusy (e : CmdError) : (s.raise e).wbusy = s.wbusy := rfl
@[simp] theorem State.raise_errcode (e : CmdError) : (s.raise e).errcode = e.code := rfl
@[simp] theorem State.raise_doneIe (e : CmdError) : (s.raise e).doneIe = s.doneIe := rfl
@[simp] theorem State.raise_src (e : CmdError) : (s.raise e).src = s.src := rfl
@[simp] theorem State.raise_dst (e : CmdError) : (s.raise e).dst = s.dst := rfl
@[simp] theorem State.raise_len (e : CmdError) : (s.raise e).len = s.len := rfl
@[simp] theorem State.raise_din (e : CmdError) : (s.raise e).din = s.din := rfl
@[simp] theorem State.raise_dout (e : CmdError) : (s.raise e).dout = s.dout := rfl
@[simp] theorem State.raise_rlen (e : CmdError) : (s.raise e).rlen = 0 := rfl
@[simp] theorem State.raise_mem (e : CmdError) : (s.raise e).mem = s.mem := rfl
@[simp] theorem State.raise_rst (e : CmdError) : (s.raise e).rst = s.rst := rfl
@[simp] theorem State.raise_lastAddr (e : CmdError) : (s.raise e).lastAddr = s.lastAddr := rfl
@[simp] theorem State.raise_hazard (e : CmdError) : (s.raise e).hazard = s.hazard := rfl
@[simp] theorem State.raise_disturbed (e : CmdError) : (s.raise e).disturbed = s.disturbed := rfl
@[simp] theorem State.raise_draws (e : CmdError) : (s.raise e).draws = s.draws := rfl
@[simp] theorem State.raise_inputs (e : CmdError) : (s.raise e).inputs = s.inputs := rfl
@[simp] theorem State.raise_reply (e : CmdError) : (s.raise e).reply = s.reply := rfl
@[simp] theorem State.raise_memSize (e : CmdError) : (s.raise e).memSize = s.memSize := rfl

/-! ### `finishDout` -/

@[simp] theorem State.finishDout_cmd (v : Word) : (s.finishDout v).cmd = s.cmd := rfl
@[simp] theorem State.finishDout_busy (v : Word) : (s.finishDout v).busy = false := rfl
@[simp] theorem State.finishDout_done (v : Word) : (s.finishDout v).done = true := rfl
@[simp] theorem State.finishDout_err (v : Word) : (s.finishDout v).err = s.err := rfl
@[simp] theorem State.finishDout_wbusy (v : Word) : (s.finishDout v).wbusy = s.wbusy := rfl
@[simp] theorem State.finishDout_errcode (v : Word) : (s.finishDout v).errcode = s.errcode := rfl
@[simp] theorem State.finishDout_doneIe (v : Word) : (s.finishDout v).doneIe = s.doneIe := rfl
@[simp] theorem State.finishDout_src (v : Word) : (s.finishDout v).src = s.src := rfl
@[simp] theorem State.finishDout_dst (v : Word) : (s.finishDout v).dst = s.dst := rfl
@[simp] theorem State.finishDout_len (v : Word) : (s.finishDout v).len = s.len := rfl
@[simp] theorem State.finishDout_din (v : Word) : (s.finishDout v).din = s.din := rfl
@[simp] theorem State.finishDout_dout (v : Word) : (s.finishDout v).dout = v := rfl
@[simp] theorem State.finishDout_rlen (v : Word) : (s.finishDout v).rlen = s.rlen := rfl
@[simp] theorem State.finishDout_mem (v : Word) : (s.finishDout v).mem = s.mem := rfl
@[simp] theorem State.finishDout_rst (v : Word) : (s.finishDout v).rst = s.rst := rfl
@[simp] theorem State.finishDout_lastAddr (v : Word) : (s.finishDout v).lastAddr = s.lastAddr := rfl
@[simp] theorem State.finishDout_hazard (v : Word) : (s.finishDout v).hazard = s.hazard := rfl
@[simp] theorem State.finishDout_disturbed (v : Word) : (s.finishDout v).disturbed = s.disturbed := rfl
@[simp] theorem State.finishDout_draws (v : Word) : (s.finishDout v).draws = s.draws := rfl
@[simp] theorem State.finishDout_inputs (v : Word) : (s.finishDout v).inputs = s.inputs := rfl
@[simp] theorem State.finishDout_reply (v : Word) : (s.finishDout v).reply = s.reply := rfl
@[simp] theorem State.finishDout_memSize (v : Word) : (s.finishDout v).memSize = s.memSize := rfl

/-! ### `finishDoutRlen` -/

@[simp] theorem State.finishDoutRlen_cmd (v n : Word) : (s.finishDoutRlen v n).cmd = s.cmd := rfl
@[simp] theorem State.finishDoutRlen_busy (v n : Word) : (s.finishDoutRlen v n).busy = false := rfl
@[simp] theorem State.finishDoutRlen_done (v n : Word) : (s.finishDoutRlen v n).done = true := rfl
@[simp] theorem State.finishDoutRlen_err (v n : Word) : (s.finishDoutRlen v n).err = s.err := rfl
@[simp] theorem State.finishDoutRlen_wbusy (v n : Word) : (s.finishDoutRlen v n).wbusy = s.wbusy := rfl
@[simp] theorem State.finishDoutRlen_errcode (v n : Word) : (s.finishDoutRlen v n).errcode = s.errcode := rfl
@[simp] theorem State.finishDoutRlen_doneIe (v n : Word) : (s.finishDoutRlen v n).doneIe = s.doneIe := rfl
@[simp] theorem State.finishDoutRlen_src (v n : Word) : (s.finishDoutRlen v n).src = s.src := rfl
@[simp] theorem State.finishDoutRlen_dst (v n : Word) : (s.finishDoutRlen v n).dst = s.dst := rfl
@[simp] theorem State.finishDoutRlen_len (v n : Word) : (s.finishDoutRlen v n).len = s.len := rfl
@[simp] theorem State.finishDoutRlen_din (v n : Word) : (s.finishDoutRlen v n).din = s.din := rfl
@[simp] theorem State.finishDoutRlen_dout (v n : Word) : (s.finishDoutRlen v n).dout = v := rfl
@[simp] theorem State.finishDoutRlen_rlen (v n : Word) : (s.finishDoutRlen v n).rlen = n := rfl
@[simp] theorem State.finishDoutRlen_mem (v n : Word) : (s.finishDoutRlen v n).mem = s.mem := rfl
@[simp] theorem State.finishDoutRlen_rst (v n : Word) : (s.finishDoutRlen v n).rst = s.rst := rfl
@[simp] theorem State.finishDoutRlen_lastAddr (v n : Word) : (s.finishDoutRlen v n).lastAddr = s.lastAddr := rfl
@[simp] theorem State.finishDoutRlen_hazard (v n : Word) : (s.finishDoutRlen v n).hazard = s.hazard := rfl
@[simp] theorem State.finishDoutRlen_disturbed (v n : Word) : (s.finishDoutRlen v n).disturbed = s.disturbed := rfl
@[simp] theorem State.finishDoutRlen_draws (v n : Word) : (s.finishDoutRlen v n).draws = s.draws := rfl
@[simp] theorem State.finishDoutRlen_inputs (v n : Word) : (s.finishDoutRlen v n).inputs = s.inputs := rfl
@[simp] theorem State.finishDoutRlen_reply (v n : Word) : (s.finishDoutRlen v n).reply = s.reply := rfl
@[simp] theorem State.finishDoutRlen_memSize (v n : Word) : (s.finishDoutRlen v n).memSize = s.memSize := rfl

/-! ### `finishBytes` -/

@[simp] theorem State.finishBytes_cmd (a : Nat) (bs : List Byte) : (s.finishBytes a bs).cmd = s.cmd := rfl
@[simp] theorem State.finishBytes_busy (a : Nat) (bs : List Byte) : (s.finishBytes a bs).busy = false := rfl
@[simp] theorem State.finishBytes_done (a : Nat) (bs : List Byte) : (s.finishBytes a bs).done = true := rfl
@[simp] theorem State.finishBytes_err (a : Nat) (bs : List Byte) : (s.finishBytes a bs).err = s.err := rfl
@[simp] theorem State.finishBytes_wbusy (a : Nat) (bs : List Byte) : (s.finishBytes a bs).wbusy = s.wbusy := rfl
@[simp] theorem State.finishBytes_errcode (a : Nat) (bs : List Byte) : (s.finishBytes a bs).errcode = s.errcode := rfl
@[simp] theorem State.finishBytes_doneIe (a : Nat) (bs : List Byte) : (s.finishBytes a bs).doneIe = s.doneIe := rfl
@[simp] theorem State.finishBytes_src (a : Nat) (bs : List Byte) : (s.finishBytes a bs).src = s.src := rfl
@[simp] theorem State.finishBytes_dst (a : Nat) (bs : List Byte) : (s.finishBytes a bs).dst = s.dst := rfl
@[simp] theorem State.finishBytes_len (a : Nat) (bs : List Byte) : (s.finishBytes a bs).len = s.len := rfl
@[simp] theorem State.finishBytes_din (a : Nat) (bs : List Byte) : (s.finishBytes a bs).din = s.din := rfl
@[simp] theorem State.finishBytes_dout (a : Nat) (bs : List Byte) : (s.finishBytes a bs).dout = s.dout := rfl
@[simp] theorem State.finishBytes_rlen (a : Nat) (bs : List Byte) : (s.finishBytes a bs).rlen = BitVec.ofNat 32 bs.length := rfl
@[simp] theorem State.finishBytes_mem (a : Nat) (bs : List Byte) : (s.finishBytes a bs).mem = s.mem.writeBytes a bs := rfl
@[simp] theorem State.finishBytes_rst (a : Nat) (bs : List Byte) : (s.finishBytes a bs).rst = s.rst := rfl
@[simp] theorem State.finishBytes_lastAddr (a : Nat) (bs : List Byte) : (s.finishBytes a bs).lastAddr = s.lastAddr := rfl
@[simp] theorem State.finishBytes_hazard (a : Nat) (bs : List Byte) : (s.finishBytes a bs).hazard = s.hazard := rfl
@[simp] theorem State.finishBytes_disturbed (a : Nat) (bs : List Byte) : (s.finishBytes a bs).disturbed = s.disturbed := rfl
@[simp] theorem State.finishBytes_draws (a : Nat) (bs : List Byte) : (s.finishBytes a bs).draws = s.draws := rfl
@[simp] theorem State.finishBytes_inputs (a : Nat) (bs : List Byte) : (s.finishBytes a bs).inputs = s.inputs := rfl
@[simp] theorem State.finishBytes_reply (a : Nat) (bs : List Byte) : (s.finishBytes a bs).reply = s.reply := rfl
@[simp] theorem State.finishBytes_memSize (a : Nat) (bs : List Byte) : (s.finishBytes a bs).memSize = s.memSize := rfl

/-! ### `resetRegisters` -/

@[simp] theorem State.resetRegisters_cmd : s.resetRegisters.cmd = 0 := rfl
@[simp] theorem State.resetRegisters_busy : s.resetRegisters.busy = false := rfl
@[simp] theorem State.resetRegisters_done : s.resetRegisters.done = false := rfl
@[simp] theorem State.resetRegisters_err : s.resetRegisters.err = false := rfl
@[simp] theorem State.resetRegisters_wbusy : s.resetRegisters.wbusy = false := rfl
@[simp] theorem State.resetRegisters_errcode : s.resetRegisters.errcode = 0 := rfl
@[simp] theorem State.resetRegisters_doneIe : s.resetRegisters.doneIe = false := rfl
@[simp] theorem State.resetRegisters_src : s.resetRegisters.src = 0 := rfl
@[simp] theorem State.resetRegisters_dst : s.resetRegisters.dst = 0 := rfl
@[simp] theorem State.resetRegisters_len : s.resetRegisters.len = 0 := rfl
@[simp] theorem State.resetRegisters_din : s.resetRegisters.din = 0 := rfl
@[simp] theorem State.resetRegisters_dout : s.resetRegisters.dout = 0 := rfl
@[simp] theorem State.resetRegisters_rlen : s.resetRegisters.rlen = 0 := rfl
@[simp] theorem State.resetRegisters_mem : s.resetRegisters.mem = s.mem := rfl
@[simp] theorem State.resetRegisters_rst : s.resetRegisters.rst = s.rst := rfl
@[simp] theorem State.resetRegisters_lastAddr : s.resetRegisters.lastAddr = s.lastAddr := rfl
@[simp] theorem State.resetRegisters_hazard : s.resetRegisters.hazard = s.hazard := rfl
@[simp] theorem State.resetRegisters_disturbed : s.resetRegisters.disturbed = false := rfl
@[simp] theorem State.resetRegisters_draws : s.resetRegisters.draws = s.draws := rfl
@[simp] theorem State.resetRegisters_inputs : s.resetRegisters.inputs = s.inputs := rfl
@[simp] theorem State.resetRegisters_reply : s.resetRegisters.reply = s.reply := rfl
@[simp] theorem State.resetRegisters_memSize : s.resetRegisters.memSize = s.memSize := rfl

/-! ### `assertReset` -/

@[simp] theorem State.assertReset_cmd : s.assertReset.cmd = 0 := rfl
@[simp] theorem State.assertReset_busy : s.assertReset.busy = false := rfl
@[simp] theorem State.assertReset_done : s.assertReset.done = false := rfl
@[simp] theorem State.assertReset_err : s.assertReset.err = false := rfl
@[simp] theorem State.assertReset_wbusy : s.assertReset.wbusy = false := rfl
@[simp] theorem State.assertReset_errcode : s.assertReset.errcode = 0 := rfl
@[simp] theorem State.assertReset_doneIe : s.assertReset.doneIe = false := rfl
@[simp] theorem State.assertReset_src : s.assertReset.src = 0 := rfl
@[simp] theorem State.assertReset_dst : s.assertReset.dst = 0 := rfl
@[simp] theorem State.assertReset_len : s.assertReset.len = 0 := rfl
@[simp] theorem State.assertReset_din : s.assertReset.din = 0 := rfl
@[simp] theorem State.assertReset_dout : s.assertReset.dout = 0 := rfl
@[simp] theorem State.assertReset_rlen : s.assertReset.rlen = 0 := rfl
@[simp] theorem State.assertReset_mem : s.assertReset.mem = s.mem.writeBytes s.abortRegion.start (freeBytes s.draws s.abortRegion.size) := rfl
@[simp] theorem State.assertReset_rst : s.assertReset.rst = true := rfl
@[simp] theorem State.assertReset_lastAddr : s.assertReset.lastAddr = s.lastAddr := rfl
@[simp] theorem State.assertReset_hazard : s.assertReset.hazard = s.hazard := rfl
@[simp] theorem State.assertReset_disturbed : s.assertReset.disturbed = false := rfl
@[simp] theorem State.assertReset_draws : s.assertReset.draws = s.draws + s.abortRegion.size := rfl
@[simp] theorem State.assertReset_inputs : s.assertReset.inputs = s.inputs := rfl
@[simp] theorem State.assertReset_reply : s.assertReset.reply = s.reply := rfl
@[simp] theorem State.assertReset_memSize : s.assertReset.memSize = s.memSize := rfl

/-! ### `releaseReset` -/

@[simp] theorem State.releaseReset_cmd : s.releaseReset.cmd = s.cmd := rfl
@[simp] theorem State.releaseReset_busy : s.releaseReset.busy = s.busy := rfl
@[simp] theorem State.releaseReset_done : s.releaseReset.done = s.done := rfl
@[simp] theorem State.releaseReset_err : s.releaseReset.err = s.err := rfl
@[simp] theorem State.releaseReset_wbusy : s.releaseReset.wbusy = s.wbusy := rfl
@[simp] theorem State.releaseReset_errcode : s.releaseReset.errcode = s.errcode := rfl
@[simp] theorem State.releaseReset_doneIe : s.releaseReset.doneIe = s.doneIe := rfl
@[simp] theorem State.releaseReset_src : s.releaseReset.src = s.src := rfl
@[simp] theorem State.releaseReset_dst : s.releaseReset.dst = s.dst := rfl
@[simp] theorem State.releaseReset_len : s.releaseReset.len = s.len := rfl
@[simp] theorem State.releaseReset_din : s.releaseReset.din = s.din := rfl
@[simp] theorem State.releaseReset_dout : s.releaseReset.dout = s.dout := rfl
@[simp] theorem State.releaseReset_rlen : s.releaseReset.rlen = s.rlen := rfl
@[simp] theorem State.releaseReset_mem : s.releaseReset.mem = s.mem := rfl
@[simp] theorem State.releaseReset_rst : s.releaseReset.rst = false := rfl
@[simp] theorem State.releaseReset_lastAddr : s.releaseReset.lastAddr = s.lastAddr := rfl
@[simp] theorem State.releaseReset_hazard : s.releaseReset.hazard = s.hazard := rfl
@[simp] theorem State.releaseReset_disturbed : s.releaseReset.disturbed = s.disturbed := rfl
@[simp] theorem State.releaseReset_draws : s.releaseReset.draws = s.draws := rfl
@[simp] theorem State.releaseReset_inputs : s.releaseReset.inputs = s.inputs := rfl
@[simp] theorem State.releaseReset_reply : s.releaseReset.reply = s.reply := rfl
@[simp] theorem State.releaseReset_memSize : s.releaseReset.memSize = s.memSize := rfl

end Sys2Proof.Machine
end

