-- ==== Sys2Proof/Laws/Step.lean ====
section
/-! SUPPORT. What a command, the block's step, a host operation and a whole step can do: one inversion lemma for each, with
its guards, so that no later proof unfolds them. -/

namespace Sys2Proof.Machine

/-! ## Checks -/

theorem State.encodeCheck_none (s : State) :
    s.encodeCheck = none ↔
      s.encodeIn.inRange s.memSize = true ∧ s.encodeOut.inRange s.memSize = true ∧
        s.encodeIn.overlaps s.encodeOut = false := by
  unfold State.encodeCheck
  cases s.encodeIn.inRange s.memSize <;> cases s.encodeOut.inRange s.memSize <;>
    cases s.encodeIn.overlaps s.encodeOut <;> simp

theorem State.encodeCheck_some {s : State} {e : CmdError} (h : s.encodeCheck = some e) :
    e = .range ∨ e = .overlap := by
  unfold State.encodeCheck at h
  split at h
  · exact .inl (Option.some.inj h).symm
  · split at h
    · exact .inr (Option.some.inj h).symm
    · cases h

theorem State.decodeCheck_none (s : State) :
    s.decodeCheck = none ↔ s.decodeIn.inRange s.memSize = true ∧ (s.len.toNat < 4 ∨ s.len.toNat % 4 = 0) := by
  unfold State.decodeCheck
  cases s.decodeIn.inRange s.memSize
  · simp
  · by_cases h : s.len.toNat < 4
    · simp [h]
    · by_cases h' : s.len.toNat % 4 = 0 <;> simp [h, h']

theorem State.decodeCheck_some {s : State} {e : CmdError} (h : s.decodeCheck = some e) :
    e = .range ∨ e = .badlen := by
  unfold State.decodeCheck at h
  split at h
  · exact .inl (Option.some.inj h).symm
  · split at h
    · cases h
    · split at h
      · exact .inr (Option.some.inj h).symm
      · cases h

/-! ## Commands -/

/-- What a ROM read can do (43_lookup_rom.md section 3). -/
theorem State.romRead_cases {n : Nat} (s : State) (w : Nat) (entry : BitVec w → BitVec n) :
    (2 ^ w ≤ s.din.toNat ∧ s.romRead w entry = s.raise .index) ∨
    (s.din.toNat < 2 ^ w ∧ s.romRead w entry = s.finishDout (outENT (entry (BitVec.ofNat w s.din.toNat)))) := by
  unfold State.romRead inIDX
  by_cases h : s.din.toNat < 2 ^ w
  · exact .inr ⟨h, if_pos h⟩
  · exact .inl ⟨by omega, if_neg h⟩

/-- What a command can do: an error of its own, or one of the four kinds of result (10_state.md R35). -/
theorem exec_cases (i : Instr) (s : State) :
    (∃ e, exec i s = .next (s.raise e) ∧ e ≠ .illegal ∧ e ≠ .reserved ∧ i ≠ .nop) ∨
    (i = .nop ∧ exec i s = .next s.finish) ∨
    (i ∈ [Instr.romrdF, .romrdPf, .romrdR, .romrdPr, .split6, .join6] ∧ ∃ v, exec i s = .next (s.finishDout v)) ∨
    (i ∈ [Instr.encgrp, .enct1, .enct2, .decgrp, .decfin] ∧ ∃ v n, exec i s = .next (s.finishDoutRlen v n)) ∨
    (i = .encode ∧ s.encodeCheck = none ∧
      exec i s = .next (s.finishBytes s.encodeOut.start (encodeBytes (s.readRegion s.encodeIn)))) ∨
    (i = .decode ∧ s.decodeCheck = none ∧
      exec i s = .next (s.finishBytes s.decodeIn.start (decodeChars (s.readRegion s.decodeIn)))) := by
  have rom : ∀ {n : Nat} (w : Nat) (entry : BitVec w → BitVec n), s.romRead w entry = s.raise .index ∨
      ∃ v, s.romRead w entry = s.finishDout v := fun w entry =>
    (s.romRead_cases w entry).imp And.right fun h => ⟨_, h.2⟩
  cases i with
  | nop => exact .inr (.inl ⟨rfl, rfl⟩)
  | encode =>
    cases h : s.encodeCheck with
    | none => exact .inr (.inr (.inr (.inr (.inl ⟨rfl, rfl, by simp [exec, execEncode, h]⟩))))
    | some e =>
      refine .inl ⟨e, by simp [exec, execEncode, h], ?_⟩
      rcases State.encodeCheck_some h with rfl | rfl <;> simp
  | decode =>
    cases h : s.decodeCheck with
    | none => exact .inr (.inr (.inr (.inr (.inr ⟨rfl, rfl, by simp [exec, execDecode, h]⟩))))
    | some e =>
      refine .inl ⟨e, by simp [exec, execDecode, h], ?_⟩
      rcases State.decodeCheck_some h with rfl | rfl <;> simp
  | encgrp => exact .inr (.inr (.inr (.inl ⟨by simp, _, _, rfl⟩)))
  | enct1 => exact .inr (.inr (.inr (.inl ⟨by simp, _, _, rfl⟩)))
  | enct2 => exact .inr (.inr (.inr (.inl ⟨by simp, _, _, rfl⟩)))
  | decgrp => exact .inr (.inr (.inr (.inl ⟨by simp, _, _, rfl⟩)))
  | decfin => exact .inr (.inr (.inr (.inl ⟨by simp, _, _, rfl⟩)))
  | romrdF =>
    rcases rom 6 forward with h | ⟨v, h⟩
    · exact .inl ⟨.index, by simp [exec, execRomrdF, h]⟩
    · exact .inr (.inr (.inl ⟨by simp, v, by simp [exec, execRomrdF, h]⟩))
  | romrdPf =>
    rcases rom 12 pairForward with h | ⟨v, h⟩
    · exact .inl ⟨.index, by simp [exec, execRomrdPf, h]⟩
    · exact .inr (.inr (.inl ⟨by simp, v, by simp [exec, execRomrdPf, h]⟩))
  | romrdR =>
    rcases rom 8 reverse with h | ⟨v, h⟩
    · exact .inl ⟨.index, by simp [exec, execRomrdR, h]⟩
    · exact .inr (.inr (.inl ⟨by simp, v, by simp [exec, execRomrdR, h]⟩))
  | romrdPr =>
    rcases rom 16 pairReverse with h | ⟨v, h⟩
    · exact .inl ⟨.index, by simp [exec, execRomrdPr, h]⟩
    · exact .inr (.inr (.inl ⟨by simp, v, by simp [exec, execRomrdPr, h]⟩))
  | split6 => exact .inr (.inr (.inl ⟨by simp, _, rfl⟩))
  | join6 => exact .inr (.inr (.inl ⟨by simp, _, rfl⟩))

/-! ## The block's step -/

/-- The state the pending command leaves before any hazard is looked at: the result of the decoded command, or an error
completion (40_control.md R91). -/
theorem complete_cases (s : State) :
    ∃ u, complete s = s.settle (.next u) ∧
      ((∃ i, decodeCmd s.cmd = .legal i ∧ exec i s = .next u) ∨
        (decodeCmd s.cmd = .illegal ∧ u = s.raise .illegal) ∨
        (decodeCmd s.cmd = .reserved ∧ u = s.raise .reserved)) := by
  unfold complete
  cases h : decodeCmd s.cmd with
  | legal i =>
    have : ∃ u, exec i s = .next u := by
      rcases exec_cases i s with ⟨e, h, _⟩ | ⟨_, h⟩ | ⟨_, v, h⟩ | ⟨_, v, n, h⟩ | ⟨_, _, h⟩ | ⟨_, _, h⟩ <;> exact ⟨_, h⟩
    obtain ⟨u, hu⟩ := this
    exact ⟨u, by simp [hu], .inl ⟨i, rfl, hu⟩⟩
  | illegal => exact ⟨_, rfl, .inr (.inl ⟨rfl, rfl⟩)⟩
  | reserved => exact ⟨_, rfl, .inr (.inr ⟨rfl, rfl⟩)⟩

theorem State.settle_undisturbed {s : State} (h : s.disturbed = false) (r : Outcome) : s.settle r = r := by
  simp [State.settle, h]

theorem State.settle_disturbed {s : State} (h : s.disturbed = true) (t : State) :
    s.settle (.next t) = .next (s.afterHazard t) := by
  simp [State.settle, h]

theorem blockStep_idle {s : State} (h : s.busy = false) : blockStep s = .next s := by simp [blockStep, h]

theorem blockStep_busy {s : State} (h : s.busy = true) : blockStep s = complete s := by simp [blockStep, h]

/-! ## The whole step -/

/-- The state a step starts from: what happens next is taken off the list. -/
def State.pop (s : State) : State := { s with inputs := s.inputs.tail }

/-- What a step is, by what happens next. -/
theorem step_cases (s : State) :
    ((s.inputs = [] ∨ ∃ rest, s.inputs = .turn :: rest) ∧ step s = blockStep s.pop) ∨
    (∃ op rest, s.inputs = .host op :: rest ∧ step s = hostStep s.pop op) ∨
    (∃ rest, s.inputs = .rstAssert :: rest ∧ step s = .next s.pop.assertReset) ∨
    (∃ rest, s.inputs = .rstRelease :: rest ∧ step s = .next s.pop.releaseReset) := by
  obtain ⟨cmd, busy, done, err, wbusy, errcode, doneIe, src, dst, len, din, dout, rlen, mem, rst, lastAddr, hazard,
    disturbed, draws, inputs, reply⟩ := s
  cases inputs with
  | nil => exact .inl ⟨.inl rfl, rfl⟩
  | cons i rest =>
    cases i with
    | turn => exact .inl ⟨.inr ⟨rest, rfl⟩, rfl⟩
    | host op => exact .inr (.inl ⟨op, rest, rfl, rfl⟩)
    | rstAssert => exact .inr (.inr (.inl ⟨rest, rfl, rfl⟩))
    | rstRelease => exact .inr (.inr (.inr ⟨rest, rfl, rfl⟩))

/-- What a host operation can do: a register access, a memory access inside the memory, or a stop outside it. -/
theorem hostStep_cases (s : State) (op : HostOp) :
    (∃ idx, op = .rd idx ∧ hostStep s op = .next (s.hostRead (Reg.ofIndex idx))) ∨
    (∃ idx v, op = .wr idx v ∧ hostStep s op = .next (s.hostWrite (Reg.ofIndex idx) v)) ∨
    (∃ a n, op = .mr a n ∧ Region.inRange s.memSize ⟨a.toNat, n⟩ = true ∧
      hostStep s op = .next (s.hostMemRead a.toNat n)) ∨
    (∃ a bs, op = .mw a bs ∧ Region.inRange s.memSize ⟨a.toNat, bs.length⟩ = true ∧
      hostStep s op = .next (s.hostMemWrite a.toNat bs)) ∨
    (op.wellFormed s.memSize = false ∧ hostStep s op = .fault .hostAccessOutsideMemory) := by
  cases op with
  | rd idx => exact .inl ⟨idx, rfl, rfl⟩
  | wr idx v => exact .inr (.inl ⟨idx, v, rfl, rfl⟩)
  | mr a n =>
    by_cases h : Region.inRange s.memSize ⟨a.toNat, n⟩ = true
    · exact .inr (.inr (.inl ⟨a, n, rfl, h, by simp [hostStep, h]⟩))
    · exact .inr (.inr (.inr (.inr ⟨by simpa [HostOp.wellFormed] using h, by simp [hostStep, h]⟩)))
  | mw a bs =>
    by_cases h : Region.inRange s.memSize ⟨a.toNat, bs.length⟩ = true
    · exact .inr (.inr (.inr (.inl ⟨a, bs, rfl, h, by simp [hostStep, h]⟩)))
    · exact .inr (.inr (.inr (.inr ⟨by simpa [HostOp.wellFormed] using h, by simp [hostStep, h]⟩)))

/-- What a register write can do, all of it: nothing, the mark WBUSY, a change of STATUS or IRQEN, an acceptance, or one
operand register (10_state.md R22 to R37). -/
theorem State.hostWrite_cases (s : State) (r : Reg) (v : Word) :
    s.hostWrite r v = s ∨
    (s.rst = false ∧ s.busy = true ∧ s.hostWrite r v = s.setWbusy) ∨
    (s.rst = false ∧ r = .status ∧ s.hostWrite r v = s.writeStatus v) ∨
    (s.rst = false ∧ r = .irqen ∧ s.hostWrite r v = s.writeIrqen v) ∨
    (s.rst = false ∧ s.busy = false ∧ r = .cmd ∧ s.hostWrite r v = s.accept v) ∨
    (s.rst = false ∧ s.busy = false ∧
      (s.hostWrite r v = { s with src := v } ∨ s.hostWrite r v = { s with dst := v } ∨
        s.hostWrite r v = { s with len := v } ∨ s.hostWrite r v = { s with din := v })) := by
  unfold State.hostWrite State.unlessBusy
  cases s.rst <;> cases s.busy <;> cases r <;> simp

/-- What a register read changes: the reply, and the count of draws (10_state.md R38). -/
theorem State.hostRead_eq (s : State) (r : Reg) :
    ∃ w k, s.hostRead r = { s with reply := .word w, draws := k } := by
  unfold State.hostRead
  split
  · exact ⟨_, _, rfl⟩
  · split
    · exact ⟨_, _, rfl⟩
    · exact ⟨_, s.draws, rfl⟩

/-! ## What every completion leaves -/

/-- Every command answers a next state, idle and done, and touches no field that is not a result (40_control.md R91, R92). -/
theorem exec_next (i : Instr) (s : State) :
    ∃ t, exec i s = .next t ∧ t.busy = false ∧ t.done = true ∧ t.doneIe = s.doneIe ∧ t.rst = s.rst ∧
      t.lastAddr = s.lastAddr ∧ t.hazard = s.hazard ∧ t.disturbed = s.disturbed ∧ t.draws = s.draws ∧
      t.inputs = s.inputs := by
  rcases exec_cases i s with ⟨e, h, _⟩ | ⟨_, h⟩ | ⟨_, v, h⟩ | ⟨_, v, n, h⟩ | ⟨_, _, h⟩ | ⟨_, _, h⟩ <;>
    exact ⟨_, h, rfl, rfl, rfl, rfl, rfl, rfl, rfl, rfl, rfl⟩

/-- A completion answers a next state, idle and done, whether or not a hazard disturbed it (70_reset_and_hazards.md R210). -/
theorem complete_next (s : State) :
    ∃ t, complete s = .next t ∧ t.busy = false ∧ t.done = true ∧ t.disturbed = false ∧ t.doneIe = s.doneIe ∧
      t.rst = s.rst ∧ t.lastAddr = s.lastAddr ∧ t.hazard = s.hazard ∧ t.inputs = s.inputs := by
  obtain ⟨u, hu, hc⟩ := complete_cases s
  have hp : u.busy = false ∧ u.done = true ∧ u.disturbed = s.disturbed ∧ u.doneIe = s.doneIe ∧ u.rst = s.rst ∧
      u.lastAddr = s.lastAddr ∧ u.hazard = s.hazard ∧ u.inputs = s.inputs := by
    rcases hc with ⟨i, _, hi⟩ | ⟨_, rfl⟩ | ⟨_, rfl⟩
    · obtain ⟨t, ht, h1, h2, h3, h4, h5, h6, h7, _, h8⟩ := exec_next i s
      rw [hi] at ht
      cases ht
      exact ⟨h1, h2, h7, h3, h4, h5, h6, h8⟩
    · simp
    · simp
  obtain ⟨h1, h2, h3, h4⟩ := hp
  cases hd : s.disturbed with
  | false =>
    rw [State.settle_undisturbed hd] at hu
    exact ⟨u, hu, h1, h2, h3.trans hd, h4⟩
  | true =>
    rw [State.settle_disturbed hd] at hu
    exact ⟨_, hu, h1, h2, rfl, h4⟩

/-- The block's step: nothing where it is idle, the completion where it is busy. -/
theorem blockStep_next (s : State) :
    ∃ t, blockStep s = .next t ∧ t.busy = false ∧ t.doneIe = s.doneIe ∧ t.rst = s.rst ∧ t.lastAddr = s.lastAddr ∧
      t.hazard = s.hazard ∧ t.inputs = s.inputs ∧ (s.busy = true → t.done = true ∧ t.disturbed = false) ∧
      (s.busy = false → t = s) := by
  cases h : s.busy with
  | false => exact ⟨s, blockStep_idle h, h, rfl, rfl, rfl, rfl, rfl, by simp, fun _ => rfl⟩
  | true =>
    obtain ⟨t, ht, h1, h2, h3, h4, h5, h6, h7, h8⟩ := complete_next s
    exact ⟨t, by rw [blockStep_busy h, ht], h1, h4, h5, h6, h7, h8, fun _ => ⟨h2, h3⟩, by simp⟩

/-! ## Runs, and what taking an input off the list leaves -/

/-- A run whose first step answers a next state is the run from that state. -/
theorem run_next {s u : State} (k : Nat) (h : step s = .next u) : Host.Core.run core (k + 1) s = Host.Core.run core k u := by
  have h' : core.step s = .next u := h
  simp only [Host.Core.run, h']

@[simp] theorem State.pop_encodeCheck (s : State) : s.pop.encodeCheck = s.encodeCheck := rfl
@[simp] theorem State.pop_decodeCheck (s : State) : s.pop.decodeCheck = s.decodeCheck := rfl
@[simp] theorem State.pop_encodeIn (s : State) : s.pop.encodeIn = s.encodeIn := rfl
@[simp] theorem State.pop_encodeOut (s : State) : s.pop.encodeOut = s.encodeOut := rfl
@[simp] theorem State.pop_decodeIn (s : State) : s.pop.decodeIn = s.decodeIn := rfl
@[simp] theorem State.pop_pending (s : State) (i : Instr) : s.pop.pending i = s.pending i := rfl
@[simp] theorem State.pop_pendingReads (s : State) : s.pop.pendingReads = s.pendingReads := rfl
@[simp] theorem State.pop_pendingWrites (s : State) : s.pop.pendingWrites = s.pendingWrites := rfl
@[simp] theorem State.pop_abortRegion (s : State) : s.pop.abortRegion = s.abortRegion := rfl
@[simp] theorem State.pop_disturbs (s : State) (r : Region) : s.pop.disturbs r = s.disturbs r := rfl
@[simp] theorem State.pop_memSize (s : State) : s.pop.memSize = s.memSize := rfl
@[simp] theorem State.pop_readByte (s : State) (a : Nat) : s.pop.readByte a = s.readByte a := rfl

end Sys2Proof.Machine
end

