-- ==== Sys2Proof/Laws/Completion.lean ====
section
/-! SUPPORT. What a completion does to the memory and the flags, said once: the size of DECODE's result, the one write a
command makes and where it lies, and that what is still to happen plays no part in it. -/

namespace Sys2Proof.Machine

/-- Every error has a code of 1 to 6 (60_exceptions.md R180). -/
theorem CmdError.code_bounds (e : CmdError) : e.code.toNat ≤ 6 ∧ e.code ≠ 0 := by
  cases e <;> decide

theorem State.memSize_le (s : State) : s.memSize ≤ 2 ^ 32 := by
  have := s.lastAddr.isLt
  unfold State.memSize
  omega

/-- ENCODE's result fills its output region (41_encoder.md R108). -/
theorem State.encodeBytes_region_length (s : State) :
    (encodeBytes (s.readRegion s.encodeIn)).length = s.encodeOut.size := by
  rw [encodeBytes_length, State.readRegion, Memory.readBytes_length]
  rfl

/-- Where the checks of DECODE pass, its result is bounded by 3*LEN/4 bytes and is empty for a short text; where no hazard
disturbed it, it is as long as `State.decodeOutSize` says (42_decoder.md R121, R129). -/
theorem State.decodeChars_region_length (s : State) (h : s.decodeCheck = none) :
    (decodeChars (s.readRegion s.decodeIn)).length ≤ 3 * s.len.toNat / 4 ∧
    (s.len.toNat < 4 → decodeChars (s.readRegion s.decodeIn) = []) ∧
    (s.disturbed = false → (decodeChars (s.readRegion s.decodeIn)).length = s.decodeOutSize) := by
  obtain ⟨_, h4⟩ := s.decodeCheck_none.1 h
  by_cases hl : s.len.toNat < 4
  · have e : decodeChars (s.readRegion s.decodeIn) = [] :=
      decodeChars_short (by simpa [State.readRegion, State.decodeIn] using hl)
    rw [e]
    exact ⟨by simp, fun _ => rfl, fun _ => by simp [State.decodeOutSize, h, hl]⟩
  · obtain ⟨g, hg⟩ : ∃ g, s.len.toNat = 4 * (g + 1) := ⟨s.len.toNat / 4 - 1, by omega⟩
    have e : s.readRegion s.decodeIn = s.mem.readBytes s.src.toNat (4 * (g + 1)) := by rw [← hg]; rfl
    have hv := validCount_bounds (s.mem.readChars4 (s.src.toNat + 4 * g))
    rw [e, decodeChars_length]
    refine ⟨by omega, fun h => absurd h hl, fun hd => ?_⟩
    unfold State.decodeOutSize
    rw [show s.src.toNat + s.len.toNat - 4 = s.src.toNat + 4 * g by omega]
    simp [h, hd, hl]
    omega

/-- What a completion does before any hazard is looked at: one write of bytes, all of them inside the write region and the
memory; the flags of R91; ERR and ERRCODE as they were, or an error with its code (40_control.md R91, R93). -/
theorem complete_effect (s : State) (hb : s.busy = true) :
    ∃ u a bs, complete s = s.settle (.next u) ∧ u.mem = s.mem.writeBytes a bs ∧
      (∀ y, a ≤ y → y < a + bs.length → s.pendingWrites.contains y = true ∧ y < s.memSize) ∧
      (u.err = s.err ∧ u.errcode = s.errcode ∨ u.err = true ∧ u.errcode.toNat ≤ 6 ∧ u.errcode ≠ 0) ∧
      u.busy = false ∧ u.done = true ∧ u.cmd = s.cmd ∧ u.rst = s.rst ∧ u.lastAddr = s.lastAddr ∧
      u.hazard = s.hazard ∧ u.disturbed = s.disturbed ∧ u.draws = s.draws ∧ u.inputs = s.inputs := by
  have raised : ∀ e : CmdError, ∃ a bs, (s.raise e).mem = s.mem.writeBytes a bs ∧
      (∀ y, a ≤ y → y < a + bs.length → s.pendingWrites.contains y = true ∧ y < s.memSize) ∧
      ((s.raise e).err = s.err ∧ (s.raise e).errcode = s.errcode ∨
        (s.raise e).err = true ∧ (s.raise e).errcode.toNat ≤ 6 ∧ (s.raise e).errcode ≠ 0) := fun e =>
    ⟨0, [], rfl, fun y _ h => absurd h (Nat.not_lt_zero y), .inr ⟨rfl, e.code_bounds.1, e.code_bounds.2⟩⟩
  obtain ⟨u, hu, hc⟩ := complete_cases s
  rcases hc with ⟨i, hd, hi⟩ | ⟨_, rfl⟩ | ⟨_, rfl⟩
  · rcases exec_cases i s with ⟨e, h, _⟩ | ⟨_, h⟩ | ⟨_, v, h⟩ | ⟨_, v, n, h⟩ | ⟨rfl, hc, h⟩ | ⟨rfl, hc, h⟩ <;>
      rw [hi] at h <;> cases h
    · obtain ⟨a, bs, h1, h2, h3⟩ := raised e
      exact ⟨_, a, bs, hu, h1, h2, h3, rfl, rfl, rfl, rfl, rfl, rfl, rfl, rfl, rfl⟩
    · exact ⟨_, 0, [], hu, rfl, fun y _ h => absurd h (Nat.not_lt_zero y), .inl ⟨rfl, rfl⟩,
        rfl, rfl, rfl, rfl, rfl, rfl, rfl, rfl, rfl⟩
    · exact ⟨_, 0, [], hu, rfl, fun y _ h => absurd h (Nat.not_lt_zero y), .inl ⟨rfl, rfl⟩,
        rfl, rfl, rfl, rfl, rfl, rfl, rfl, rfl, rfl⟩
    · exact ⟨_, 0, [], hu, rfl, fun y _ h => absurd h (Nat.not_lt_zero y), .inl ⟨rfl, rfl⟩,
        rfl, rfl, rfl, rfl, rfl, rfl, rfl, rfl, rfl⟩
    · refine ⟨_, _, _, hu, rfl, fun y h1 h2 => ?_, .inl ⟨rfl, rfl⟩, rfl, rfl, rfl, rfl, rfl, rfl, rfl, rfl, rfl⟩
      have hp : s.pendingWrites = s.encodeOut := by simp [State.pendingWrites, State.pending, hb, hd]
      have hr := (s.encodeCheck_none.1 hc).2.1
      rw [s.encodeBytes_region_length] at h2
      rw [Region.inRange_iff] at hr
      rw [hp, Region.contains_iff]
      omega
    · refine ⟨_, _, _, hu, rfl, fun y h1 h2 => ?_, .inl ⟨rfl, rfl⟩, rfl, rfl, rfl, rfl, rfl, rfl, rfl, rfl, rfl⟩
      have hp : s.pendingWrites = ⟨s.src.toNat, s.decodeOutSize⟩ := by
        simp [State.pendingWrites, State.pending, hb, hd]
      obtain ⟨hl, hs, he⟩ := s.decodeChars_region_length hc
      have hr := (s.decodeCheck_none.1 hc).1
      have e1 : s.decodeIn.start = s.src.toNat := rfl
      have e2 : s.decodeIn.size = s.len.toNat := rfl
      rw [Region.inRange_iff] at hr
      rw [hp, Region.contains_iff]
      refine ⟨⟨h1, ?_⟩, by omega⟩
      show y < s.src.toNat + s.decodeOutSize
      by_cases hdd : s.disturbed = true
      · have h4 : ¬ s.len.toNat < 4 := fun h4 => by
          rw [hs h4] at h2
          exact absurd h2 (by simpa using h1)
        have : s.decodeOutSize = 3 * s.len.toNat / 4 := by simp [State.decodeOutSize, hc, hdd, h4]
        omega
      · rw [← he (by simpa using hdd)]
        exact h2
  · obtain ⟨a, bs, h1, h2, h3⟩ := raised .illegal
    exact ⟨_, a, bs, hu, h1, h2, h3, rfl, rfl, rfl, rfl, rfl, rfl, rfl, rfl, rfl⟩
  · obtain ⟨a, bs, h1, h2, h3⟩ := raised .reserved
    exact ⟨_, a, bs, hu, h1, h2, h3, rfl, rfl, rfl, rfl, rfl, rfl, rfl, rfl, rfl⟩

/-- A wide write inside the memory lists no address outside it. -/
theorem Memory.inside_writeBytes {m : Memory} {n a : Nat} {bs : List Byte} (h : ∀ c ∈ m, c.1 < n)
    (hr : bs.length = 0 ∨ a + bs.length ≤ n) : ∀ c ∈ m.writeBytes a bs, c.1 < n := by
  intro c hc
  rcases Memory.mem_writeBytes hc with h' | h'
  · omega
  · exact h c h'

theorem Region.clip_inside (r : Region) (n : Nat) : (r.clip n).size = 0 ∨ (r.clip n).start + (r.clip n).size ≤ n := by
  simp only [Region.clip]
  omega

/-! ## What is still to happen, and the hazard mark, play no part in a command -/

/-- No command reads `inputs` or `disturbed`. -/
theorem exec_marks (i : Instr) (s t : State) (l : List Input) (d : Bool) (h : exec i s = .next t) :
    exec i { s with inputs := l, disturbed := d } = .next { t with inputs := l, disturbed := d } := by
  cases i
  case encode =>
    have hc : ({ s with inputs := l, disturbed := d } : State).encodeCheck = s.encodeCheck := rfl
    simp only [exec, execEncode, hc] at h ⊢
    cases hcc : s.encodeCheck <;> rw [hcc] at h <;> (cases h; rfl)
  case decode =>
    have hc : ({ s with inputs := l, disturbed := d } : State).decodeCheck = s.decodeCheck := rfl
    simp only [exec, execDecode, hc] at h ⊢
    cases hcc : s.decodeCheck <;> rw [hcc] at h <;> (cases h; rfl)
  case romrdF => cases h; simp only [exec, execRomrdF, State.romRead]; split <;> rfl
  case romrdPf => cases h; simp only [exec, execRomrdPf, State.romRead]; split <;> rfl
  case romrdR => cases h; simp only [exec, execRomrdR, State.romRead]; split <;> rfl
  case romrdPr => cases h; simp only [exec, execRomrdPr, State.romRead]; split <;> rfl
  all_goals (cases h; rfl)

theorem exec_inputs (i : Instr) (s t : State) (l : List Input) (h : exec i s = .next t) :
    exec i { s with inputs := l } = .next { t with inputs := l } := by
  obtain ⟨u, hu, _, _, _, _, _, _, hd, _⟩ := exec_next i s
  rw [h] at hu
  cases hu
  exact (exec_marks i s t l s.disturbed h).trans (by rw [← hd])

/-- A disturbed completion is the undisturbed one with the effect of the hazard (70_reset_and_hazards.md R210, log 7). -/
theorem complete_disturbed (s : State) (h : s.disturbed = true) :
    ∃ u, complete { s with disturbed := false } = .next u ∧
      complete s = .next (s.afterHazard { u with disturbed := true }) := by
  obtain ⟨v, hv, hc⟩ := complete_cases s
  refine ⟨{ v with disturbed := false }, ?_, ?_⟩
  · unfold complete
    rcases hc with ⟨i, hd, hi⟩ | ⟨hd, rfl⟩ | ⟨hd, rfl⟩
    · obtain ⟨w, hw, _, _, _, _, _, _, _, _, hin⟩ := exec_next i s
      rw [hi] at hw
      cases hw
      simp only [hd]
      exact (State.settle_undisturbed (s := { s with disturbed := false }) rfl _).trans
        ((exec_marks i s v s.inputs false hi).trans (by rw [← hin]))
    · simp only [hd]; rfl
    · simp only [hd]; rfl
  · rw [hv, State.settle_disturbed h]
    rfl

theorem State.settle_inputs {s u t : State} (l : List Input) (h : s.settle (.next u) = .next t) :
    State.settle { s with inputs := l } (.next { u with inputs := l }) = .next { t with inputs := l } := by
  by_cases hd : s.disturbed = true
  · rw [State.settle_disturbed hd] at h
    cases h
    exact State.settle_disturbed (s := { s with inputs := l }) hd _
  · rw [Bool.not_eq_true] at hd
    rw [State.settle_undisturbed hd] at h
    cases h
    exact State.settle_undisturbed (s := { s with inputs := l }) hd _

theorem complete_inputs (s t : State) (l : List Input) (h : complete s = .next t) :
    complete { s with inputs := l } = .next { t with inputs := l } := by
  obtain ⟨u, hu, hc⟩ := complete_cases s
  rw [hu] at h
  rw [← State.settle_inputs l h]
  unfold complete
  rcases hc with ⟨i, hd, hi⟩ | ⟨hd, rfl⟩ | ⟨hd, rfl⟩
  · simp only [hd, exec_inputs i s u l hi]
  · simp only [hd]; rfl
  · simp only [hd]; rfl

/-- Runs follow on each other. -/
theorem run_add (n k : Nat) {s t : State} (h : Host.Core.run core n s = .next t) :
    Host.Core.run core (n + k) s = Host.Core.run core k t := by
  induction n generalizing s with
  | zero => cases h; rw [Nat.zero_add]
  | succ n ih =>
    cases hs : step s with
    | next c =>
      rw [run_next _ hs] at h
      rw [Nat.succ_add]
      exact (run_next _ hs).trans (ih h)
    | fault f =>
      have hs' : core.step s = .fault f := hs
      simp [Host.Core.run, hs'] at h
    | refused r =>
      have hs' : core.step s = .refused r := hs
      simp [Host.Core.run, hs'] at h

end Sys2Proof.Machine
end

