-- ==== Sys2Proof/Laws/PerInstr.lean ====
section
/-! SUPPORT. Laws of each command as syntax, one lemma per command. -/

namespace Sys2Proof.Laws.DecodeEncode

/-- The command's word is legal, has the opcode table's 32 bits, and reads back as the command through the decoder and
through the table's numbering of bits (30_encoding.md R72, R73). -/
def Statement (i : Instr) : Prop :=
  legalWord (encode i) = true ∧ decodeCmd (encode i) = .legal i ∧ decodeTableWord 32 (encode i).toNat = some i

theorem nop : Statement .nop := by unfold Statement; decide

theorem encode : Statement .encode := by unfold Statement; decide

theorem decode : Statement .decode := by unfold Statement; decide

theorem encgrp : Statement .encgrp := by unfold Statement; decide

theorem enct1 : Statement .enct1 := by unfold Statement; decide

theorem enct2 : Statement .enct2 := by unfold Statement; decide

theorem decgrp : Statement .decgrp := by unfold Statement; decide

theorem decfin : Statement .decfin := by unfold Statement; decide

theorem romrdF : Statement .romrdF := by unfold Statement; decide

theorem romrdPf : Statement .romrdPf := by unfold Statement; decide

theorem romrdR : Statement .romrdR := by unfold Statement; decide

theorem romrdPr : Statement .romrdPr := by unfold Statement; decide

theorem split6 : Statement .split6 := by unfold Statement; decide

theorem join6 : Statement .join6 := by unfold Statement; decide

end Sys2Proof.Laws.DecodeEncode
end

