-- ==== Sys2Proof/Tests/Slice0.lean ====
section
/-! SUPPORT. The model's own tests: command words written out from 30_encoding.md, ill-formed terms refused, one step of each
command on the values of 95_test_vectors.md, and for every statement with hypotheses a state that meets them. -/

namespace Sys2Proof.Tests

open Sys2Proof Sys2Proof.Machine

/-! ## Helpers -/

/-- After reset, with `MEM_SIZE` = 0x1000 (95_test_vectors.md). -/
def base : State := { State.reset with lastAddr := 0xFFF }

/-- The outcome is a next state with this property. -/
def after (o : Outcome) (p : State → Bool) : Bool :=
  match o with
  | .next t => p t
  | .fault _ => false
  | .refused _ => false

/-- The state from which a command reads DIN. -/
def withDin (v : Word) : State := { base with din := v, dout := 0x11111111, rlen := 8 }

/-- The registers of ENCODE and DECODE. -/
def withRegs (src dst len : Word) : State := { base with src := src, dst := dst, len := len }

/-- DOUT and RLEN after the command, without an error. -/
def gives (i : Instr) (v dout rlen : Word) : Bool :=
  after (exec i (withDin v)) fun t => t.dout == dout && t.rlen == rlen && !t.err && t.done && !t.busy

/-- The command ends in error INDEX with DOUT as it was and RLEN 0. -/
def givesIndex (i : Instr) (v : Word) : Bool :=
  after (exec i (withDin v)) fun t => t.dout == 0x11111111 && t.rlen == 0 && t.statusWord == 0x66

def hello : List Byte := [0x48, 0x65, 0x6C, 0x6C, 0x6F]
def helloText : List Byte := [0x53, 0x47, 0x56, 0x73, 0x62, 0x47, 0x38, 0x3D]

/-- A pending ENCODE of `"Hello"` from 0x100 to 0x200 (95_test_vectors.md H2, H4 to H6). -/
def encodePending : State :=
  { (withRegs 0x100 0x200 5).writeBytes 0x100 hello with cmd := 0x1, busy := true }

/-- A pending DECODE of eight characters at 0x40 (95_test_vectors.md H3). -/
def decodePending : State :=
  { (withRegs 0x40 0x7FF 8).writeBytes 0x40 helloText with cmd := 0x2, busy := true }

/-- A pending NOP. -/
def nopPending : State := { base with cmd := 0, busy := true }

/-! ## Decoding: RSV (31:10), WAY (9:8), OPC (7:0) of 30_encoding.md R70 and R72 -/

theorem test_decode_control : decodeCmd 0b0000000000000000000000_00_00000000#32 = .legal .nop := by decide

theorem test_decode_encoder :
    decodeCmd 0b0000000000000000000000_00_00000001#32 = .legal .encode ∧
    decodeCmd 0b0000000000000000000000_00_00000011#32 = .legal .encgrp ∧
    decodeCmd 0b0000000000000000000000_00_00000100#32 = .legal .enct1 ∧
    decodeCmd 0b0000000000000000000000_00_00000101#32 = .legal .enct2 := by decide

theorem test_decode_decoder :
    decodeCmd 0b0000000000000000000000_00_00000010#32 = .legal .decode ∧
    decodeCmd 0b0000000000000000000000_00_00000110#32 = .legal .decgrp ∧
    decodeCmd 0b0000000000000000000000_00_00000111#32 = .legal .decfin := by decide

theorem test_decode_rom :
    decodeCmd 0b0000000000000000000000_00_00001000#32 = .legal .romrdF ∧
    decodeCmd 0b0000000000000000000000_01_00001000#32 = .legal .romrdPf ∧
    decodeCmd 0b0000000000000000000000_10_00001000#32 = .legal .romrdR ∧
    decodeCmd 0b0000000000000000000000_11_00001000#32 = .legal .romrdPr := by decide

theorem test_decode_packing :
    decodeCmd 0b0000000000000000000000_00_00001001#32 = .legal .split6 ∧
    decodeCmd 0b0000000000000000000000_00_00001010#32 = .legal .join6 := by decide

/-- 95_test_vectors.md X1 to X8. -/
theorem test_decode_rejected :
    decodeCmd 0x0000000B = .illegal ∧ decodeCmd 0x000000FF = .illegal ∧ decodeCmd 0xFFFFFFFF = .illegal ∧
    decodeCmd 0x00000400 = .reserved ∧ decodeCmd 0x00000100 = .reserved ∧ decodeCmd 0x00000103 = .reserved ∧
    decodeCmd 0x80000001 = .reserved ∧ decodeCmd 0x00000408 = .reserved := by decide

/-- The opcode table's numbering, and that the bits from `nbits` up are 0. -/
theorem test_table_word :
    decodeTableWord 32 0x308 = some .romrdPr ∧ decodeTableWord 32 0x408 = none ∧ decodeTableWord 16 0x10009 = some .split6 ∧
    decodeTableWord 33 0 = none := by decide

/-! ## Ill-formed terms are refused -/

theorem test_wf_word : legalWord 0x308 = true ∧ legalWord 0x0B = false ∧ legalWord 0x403 = false := by decide

theorem test_wf_host_read :
    (HostOp.mr 0xFFC 4).wellFormed 0x1000 = true ∧ (HostOp.mr 0xFFD 4).wellFormed 0x1000 = false := by decide

theorem test_wf_host_write :
    (HostOp.mw 0xFFF [1]).wellFormed 0x1000 = true ∧ (HostOp.mw 0xFFF [1, 2]).wellFormed 0x1000 = false ∧
    (HostOp.mw 0xFFFFFFFF []).wellFormed 0x1000 = true := by decide

theorem test_wf_input :
    (Input.host (.mr 0xFFFFFFFF 2)).wellFormed 0x1000 = false ∧ Input.rstAssert.wellFormed 0x1000 = true := by decide

theorem test_wf_pseudo :
    (Pseudo.op .nop 0 0).wellFormed = false ∧ (Pseudo.op .encode 0 0).wellFormed = false ∧
    (Pseudo.op .join6 0 0).wellFormed = true := by decide

theorem test_wf_memory :
    Memory.wf [(1, 0), (2, 0)] = true ∧ Memory.wf [(2, 0), (1, 0)] = false ∧ Memory.wf [(1, 0), (1, 1)] = false := by decide

/-! ## One step of each command (95_test_vectors.md) -/

/-- CR7 and the example of 40_control.md R94. -/
theorem test_nop : after (Host.Core.run core 2 { base with
      done := true, err := true, errcode := 5, rlen := 8, inputs := [wrReg .cmd 0, .turn] })
    (fun t => t.statusWord == 2 && t.rlen == 8) = true := by decide +kernel

/-- W1. -/
theorem test_encode_hello :
    after (exec .encode ((withRegs 0x100 0x200 5).writeBytes 0x100 hello)) (fun t =>
      t.mem.readBytes 0x200 8 == helloText && t.mem.readBytes 0x100 5 == hello && t.rlen == 8 && t.mem.length == 13) = true := by
  decide +kernel

/-- E33 (OVERLAP), E40 (no wrap-around) and E41 (RANGE before OVERLAP). -/
theorem test_encode_errors :
    after (exec .encode (withRegs 0x100 0x102 3)) (fun t => t.statusWord == 0x46) = true ∧
    after (exec .encode (withRegs 0xFFFFFFFF 0 2)) (fun t => t.statusWord == 0x36) = true ∧
    after (exec .encode (withRegs 0xFFE 0xFFD 2)) (fun t => t.statusWord == 0x36) = true := by decide +kernel

/-- D20: the bytes after the result are kept. -/
theorem test_decode_foobar :
    after (exec .decode ((withRegs 0x40 0x7FF 8).writeBytes 0x40 [0x5A, 0x6D, 0x39, 0x76, 0x59, 0x6D, 0x46, 0x79])) (fun t =>
      t.mem.readBytes 0x40 8 == [0x66, 0x6F, 0x6F, 0x62, 0x61, 0x72, 0x46, 0x79] && t.rlen == 6) = true := by decide +kernel

/-- D26 (BADLEN), D29 (RANGE before the short input) and D30 (RANGE before BADLEN). -/
theorem test_decode_errors :
    after (exec .decode (withRegs 0x40 0 5)) (fun t => t.statusWord == 0x56) = true ∧
    after (exec .decode (withRegs 0xFFF 0 2)) (fun t => t.statusWord == 0x36) = true ∧
    after (exec .decode (withRegs 0xFFE 0 6)) (fun t => t.statusWord == 0x36) = true := by decide +kernel

/-- E5, E6. -/
theorem test_encgrp : gives .encgrp 0xFF48656C 0x53475673 4 = true ∧ gives .encgrp 0x00FBFF00 0x2B2F3841 4 = true := by
  decide +kernel

/-- E10, E12. -/
theorem test_enct1 : gives .enct1 0x00000003 0x41773D3D 4 = true ∧ gives .enct1 0x12345648 0x53413D3D 4 = true := by
  decide +kernel

/-- E17, E18. -/
theorem test_enct2 : gives .enct2 0x0000000F 0x4141383D 4 = true ∧ gives .enct2 0xABCD6C6F 0x6247383D 4 = true := by
  decide +kernel

/-- D1, D4. -/
theorem test_decgrp : gives .decgrp 0x53475673 0x0048656C 3 = true ∧ gives .decgrp 0x2B2B2B2B 0x00FBEFBE 3 = true := by
  decide +kernel

/-- D6: with `=` in the group the low bits are those of `PREV_INVALID(0x383D)`. -/
theorem test_decgrp_padding : ∃ t, exec .decgrp (withDin 0x6247383D) = .next t ∧
    t.dout = 0x006C6000 ||| (Config.prevInvalid 0x383D).setWidth 32 := by
  refine ⟨_, rfl, ?_⟩
  have h : decGroup ⟨0x62, 0x47, 0x38, 0x3D⟩ = unpack24 (join12 0x6C6 (Config.prevInvalid 0x383D)) := rfl
  show outG3B (decGroup ⟨0x62, 0x47, 0x38, 0x3D⟩) = _
  rw [h, unpack24_join12]
  apply BitVec.eq_of_getLsbD_eq
  intro i hi
  simp only [outG3B, BitVec.getLsbD_append, BitVec.getLsbD_extractLsb', BitVec.getLsbD_or, BitVec.getLsbD_setWidth]
  interval_cases i <;> simp

/-- D9, D15. -/
theorem test_decfin : gives .decfin 0x53475673 0x0048656C 3 = true ∧ gives .decfin 0x2F2F2F2F 0x00FFFFFF 3 = true := by
  decide +kernel

/-- D8 and D14: one padding character, and a position 3 that is not inspected. -/
theorem test_decfin_padding :
    (∃ t, exec .decfin (withDin 0x6247383D) = .next t ∧ t.dout = 0x006C6F00 ∧ t.rlen = 2) ∧
    (∃ t, exec .decfin (withDin 0x51513D41) = .next t ∧ t.dout = 0x00410000 ∧ t.rlen = 1) := by
  refine ⟨⟨_, rfl, ?_, rfl⟩, ⟨_, rfl, ?_, rfl⟩⟩
  · have h : decFinalBytes ⟨0x62, 0x47, 0x38, 0x3D⟩ = unpack24 (join6 ⟨27, 6, 60, Config.revInvalid 0x3D⟩) := rfl
    show outG3B (zeroBeyond 2 (decFinalBytes ⟨0x62, 0x47, 0x38, 0x3D⟩)) = _
    rw [h, unpack24_join6]
    rfl
  · have h : decFinalBytes ⟨0x51, 0x51, 0x3D, 0x41⟩ = unpack24 (join6 ⟨16, 16, Config.revInvalid 0x3D, 0⟩) := rfl
    show outG3B (zeroBeyond 1 (decFinalBytes ⟨0x51, 0x51, 0x3D, 0x41⟩)) = _
    rw [h, unpack24_join6]
    rfl

/-- M5, M7 and M27 (RLEN stays 8). -/
theorem test_romrd_f : gives .romrdF 62 0x2B 8 = true ∧ givesIndex .romrdF 0xFFFFFFFF = true := by decide +kernel

/-- M12, M13. -/
theorem test_romrd_pf : gives .romrdPf 0x55A 0x5661 8 = true ∧ givesIndex .romrdPf 0x1000 = true := by decide +kernel

/-- M15, M20. -/
theorem test_romrd_r : gives .romrdR 0x7A 0x33 8 = true ∧ givesIndex .romrdR 0x100 = true := by decide +kernel

/-- M19: a non-alphabet index is no error. -/
theorem test_romrd_r_padding : ∃ t, exec .romrdR (withDin 0x3D) = .next t ∧ t.err = false ∧
    t.dout = (Config.revInvalid 0x3D).setWidth 32 := ⟨_, rfl, rfl, rfl⟩

/-- M24, M26. -/
theorem test_romrd_pr : gives .romrdPr 0x7A30 0xCF4 8 = true ∧ givesIndex .romrdPr 0x10000 = true := by decide +kernel

/-- M25. -/
theorem test_romrd_pr_padding : ∃ t, exec .romrdPr (withDin 0x3D41) = .next t ∧ t.err = false ∧
    t.dout = (Config.prevInvalid 0x3D41).setWidth 32 := ⟨_, rfl, rfl, rfl⟩

/-- B4, B6. -/
theorem test_split6 : gives .split6 0xFFFFFFFF 0x3F3F3F3F 8 = true ∧ gives .split6 0x00123456 0x04231116 8 = true := by
  decide +kernel

/-- B8, B12. -/
theorem test_join6 : gives .join6 0xD2C6D5EC 0x0048656C 8 = true ∧ gives .join6 0x04080C10 0x00108310 8 = true := by
  decide +kernel

/-! ## The host's side (95_test_vectors.md, sections 2 and 8) -/

/-- CR6. -/
theorem test_status_clear : after (step { base with
      done := true, err := true, errcode := 5, inputs := [wrReg .status 0x4] }) (fun t => t.statusWord == 0x2) = true := by
  decide +kernel

/-- CR8. -/
theorem test_write_while_busy : after (step { encodePending with inputs := [wrReg .src 0x300] })
    (fun t => t.src == 0x100 && t.statusWord == 0x9) = true := by decide +kernel

/-- CR17. -/
theorem test_irqen_while_busy : after (Host.Core.run core 2 { encodePending with
      inputs := [wrReg .irqen 0xFFFFFFFF, rdReg .irqen] }) (fun t => t.reply == .word 1 && !t.wbusy) = true := by decide +kernel

/-- H4, H5. -/
theorem test_hazard :
    after (step { encodePending with inputs := [.host (.mw 0x100 [0])] }) (fun t => t.hazard) = true ∧
    after (Host.Core.run core 2 { encodePending with inputs := [.host (.mw 0x300 [7]), .host (.mr 0x101 1)] })
      (fun t => !t.hazard && t.readByte 0x300 == 7 && t.reply == .bytes [0x65]) = true := by decide +kernel

/-- The step that `withFetchWord` sets up runs the command, first thing after reset. -/
theorem test_fetch_word :
    after (step (State.reset.withFetchWord 32 0x108)) (fun t => t.cmd == 0x108 && t.dout == 0x4141 && t.done) = true := by
  decide +kernel

/-! ## Witnesses: a state and operands that meet the hypotheses of each statement, clause by clause -/

theorem witness_CmdWriteWhileIdleIsAccepted : ∃ (s : State) (w : Word) (rest : List Input),
    s.busy = false ∧ s.rst = false ∧ s.inputs = .host (.wr 1 w) :: rest :=
  ⟨{ base with inputs := [.host (.wr 1 0xFFFFFFFF)] }, 0xFFFFFFFF, [], rfl, rfl, rfl⟩

/-- Both ends of the list of registers, and a step that leaves the command pending. -/
theorem witness_WritesWhileBusyAreDroppedAndRecorded :
    (∃ (s : State) (v : Word), s.busy = true ∧ s.rst = false ∧ s.inputs = [.host (.wr 1 v)]) ∧
    (∃ (s : State) (v : Word), s.busy = true ∧ s.rst = false ∧ s.inputs = [.host (.wr 7 v)]) ∧
    (∃ s t : State, s.busy = true ∧ step s = .next t ∧ t.busy = true) :=
  ⟨⟨{ encodePending with inputs := [.host (.wr 1 2)] }, 2, rfl, rfl, rfl⟩,
    ⟨{ encodePending with inputs := [.host (.wr 7 2)] }, 2, rfl, rfl, rfl⟩,
    ⟨{ encodePending with inputs := [.host (.wr 5 2)] }, _, rfl, rfl, rfl⟩⟩

theorem witness_CompletionRunsTheDecodedCommand :
    (∃ (s : State) (i : Instr) (rest : List Input),
      s.busy = true ∧ s.disturbed = false ∧ decodeCmd s.cmd = .legal i ∧ s.inputs = .turn :: rest) ∧
    (∃ (s : State) (i : Instr),
      s.busy = true ∧ s.disturbed = false ∧ decodeCmd s.cmd = .legal i ∧ s.inputs = []) :=
  ⟨⟨{ encodePending with inputs := [.turn] }, .encode, [], rfl, rfl, rfl, rfl⟩,
    ⟨decodePending, .decode, rfl, rfl, rfl, rfl⟩⟩

/-- The smallest and the largest illegal OPC. -/
theorem witness_IllegalWordCompletesWithCodeOne :
    (∃ s : State, s.busy = true ∧ s.disturbed = false ∧ s.inputs = [.turn] ∧ (s.cmd.extractLsb' 0 8).toNat = 0x0B) ∧
    (∃ s : State, s.busy = true ∧ s.disturbed = false ∧ s.inputs = [.turn] ∧ (s.cmd.extractLsb' 0 8).toNat = 0xFF) :=
  ⟨⟨{ nopPending with cmd := 0x0B, inputs := [.turn] }, rfl, rfl, rfl, rfl⟩,
    ⟨{ nopPending with cmd := 0xFFFFFFFF, inputs := [.turn] }, rfl, rfl, rfl, rfl⟩⟩

/-- A bit of RSV at the largest legal OPC, and WAY with the neighbours of 0x08. -/
theorem witness_ReservedWordCompletesWithCodeTwo :
    (∃ s : State, s.busy = true ∧ s.disturbed = false ∧ s.inputs = [.turn] ∧ (s.cmd.extractLsb' 0 8).toNat = 0x0A ∧
      s.cmd.extractLsb' 10 22 ≠ 0) ∧
    (∃ s : State, s.busy = true ∧ s.disturbed = false ∧ s.inputs = [.turn] ∧ (s.cmd.extractLsb' 0 8).toNat ≤ 0x0A ∧
      s.cmd.extractLsb' 8 2 ≠ 0 ∧ s.cmd.extractLsb' 0 8 ≠ 0x08) :=
  ⟨⟨{ nopPending with cmd := 0x0000040A, inputs := [.turn] }, rfl, rfl, rfl, rfl, by decide⟩,
    ⟨{ nopPending with cmd := 0x00000107, inputs := [.turn] }, rfl, rfl, rfl, by decide, by decide, by decide⟩⟩

theorem witness_CommandErrorChangesNothingElse :
    (∃ s t : State, s.busy = true ∧ s.disturbed = false ∧ s.err = false ∧ s.inputs = [.turn] ∧ step s = .next t ∧ t.err = true ∧
      t.errcode = 1) ∧
    (∃ s t : State, s.busy = true ∧ s.disturbed = false ∧ s.err = false ∧ s.inputs = [.turn] ∧ step s = .next t ∧ t.err = true ∧
      t.errcode = 6) :=
  ⟨⟨{ nopPending with cmd := 0x0B, inputs := [.turn] }, _, rfl, rfl, rfl, rfl, rfl, rfl, rfl⟩,
    ⟨{ withDin 64 with cmd := 0x008, busy := true, inputs := [.turn] }, _, rfl, rfl, rfl, rfl, rfl, rfl, rfl⟩⟩

theorem witness_EveryCommandCompletesWithinItsFrame :
    (∃ i : Instr, i ≠ .encode ∧ i ≠ .decode) ∧ (∃ i : Instr, i.readsDin = false) ∧
    (∃ (i : Instr) (s t : State), i ∈ [Instr.nop, .romrdF, .romrdPf, .romrdR, .romrdPr, .split6, .join6] ∧
      s.err = false ∧ exec i s = .next t ∧ t.err = false) :=
  ⟨⟨.nop, by decide⟩, ⟨.encode, rfl⟩, ⟨.split6, base, _, by decide, rfl, rfl, rfl⟩⟩

theorem witness_NopOnlyCompletes : ∃ (s : State) (rest : List Input),
    s.busy = false ∧ s.rst = false ∧ s.err = true ∧ s.inputs = .host (.wr 1 0) :: .turn :: rest :=
  ⟨{ base with err := true, errcode := 5, inputs := [.host (.wr 1 0), .turn] }, [], rfl, rfl, rfl, rfl⟩

/-- RANGE by the input and by the output region, OVERLAP, and the accepted cases: adjacent regions, both ends of the memory,
and LEN = 0 (95_test_vectors.md E31 to E39). -/
theorem witness_EncodeCommandEncodesItsRegion :
    (withRegs 0xFFD 0x000 4).encodeCheck = some .range ∧ (withRegs 0x000 0xFFD 1).encodeCheck = some .range ∧
    (withRegs 0x100 0x102 3).encodeCheck = some .overlap ∧ (withRegs 0x100 0x103 3).encodeCheck = none ∧
    (withRegs 0xFFC 0x000 4).encodeCheck = none ∧ (withRegs 0x000 0xFFC 1).encodeCheck = none ∧
    (withRegs 0xFFFFFFFF 0xFFFFFFFF 0).encodeCheck = none := by decide

theorem witness_EncodeLengthLaw : ∃ s t : State, s.err = false ∧ exec .encode s = .next t ∧ t.err = false :=
  ⟨withRegs 0x100 0x103 3, _, rfl, rfl, rfl⟩

theorem witness_PairPathAgreesWithSinglePath : ∃ (s t u : State) (k : Nat),
    exec .split6 s = .next t ∧ exec .encgrp s = .next u ∧ k = 3 ∧ k < 4 := ⟨withDin 0x48656C, _, _, 3, rfl, rfl, rfl, by decide⟩

/-- One, two and three valid bytes. -/
theorem witness_DecfinDecodesAFinalGroup :
    (withDin 0x3D3D3D3D).din.extractLsb' 8 8 = 0x3D#8 ∧
    ((withDin 0x4141413D).din.extractLsb' 8 8 ≠ 0x3D#8 ∧ (withDin 0x4141413D).din.extractLsb' 0 8 = 0x3D#8) ∧
    ((withDin 0x3D3D4141).din.extractLsb' 8 8 ≠ 0x3D#8 ∧ (withDin 0x3D3D4141).din.extractLsb' 0 8 ≠ 0x3D#8) := by decide

theorem witness_ShortDecodeIsEmptyAndNoError :
    (∃ s : State, s.len.toNat = 3 ∧ s.src.toNat + s.len.toNat = s.memSize) ∧
    (∃ s : State, s.len.toNat = 0 ∧ s.memSize < s.src.toNat) :=
  ⟨⟨withRegs 0xFFD 0 3, rfl, rfl⟩, ⟨withRegs 0xFFFFFFFF 0 0, rfl, by decide⟩⟩

/-- RANGE before the short text and before BADLEN, the short text, BADLEN at 5, and whole groups up to the end of the memory
(95_test_vectors.md D25 to D31). -/
theorem witness_DecodeCommandDecodesInPlace :
    (withRegs 0xFFF 0 2).decodeCheck = some .range ∧ (withRegs 0xFFE 0 6).decodeCheck = some .range ∧
    (withRegs 0xFFD 0 3).decodeCheck = none ∧ (withRegs 0x40 0 5).decodeCheck = some .badlen ∧
    (withRegs 0xFFC 0 4).decodeCheck = none ∧ (withRegs 0xFFFFFFFF 0 0).decodeCheck = none := by decide

theorem witness_DecodingIsGroupsThenFinalGroup :
    (∃ ts : List Byte, ts.length = 4 * 1) ∧ ∃ ts : List Byte, ts.length = 4 * 2 :=
  ⟨⟨[0x41, 0x41, 0x3D, 0x3D], rfl⟩, ⟨helloText, rfl⟩⟩

theorem witness_DecodeLengthLaw : ∃ (s : State) (n : Nat),
    n = s.len.toNat ∧ 4 ≤ n ∧ n % 4 = 0 ∧ s.src.toNat + n ≤ s.memSize :=
  ⟨withRegs 0xFFC 0 4, 4, by decide⟩

theorem witness_InPlacePassWritesTheDecodedText : ∃ s : State, s.decodeCheck = none ∧ s.len.toNat / 4 = 2 :=
  ⟨withRegs 0xFF8 0 8, by decide⟩

theorem witness_RoundTrip : ∃ s t : State, s.err = false ∧ exec .encode s = .next t ∧ t.err = false ∧ s.len = 1 :=
  ⟨withRegs 0 0xFFC 1, _, rfl, rfl, rfl, rfl⟩

theorem witness_DecodedBytesDependOnTheirCharacters :
    (∃ c2 : Byte, c2 ≠ padChar) ∧
    (∃ (g : Chars4) (v0 v1 v2 v3 : BitVec 6), forward v0 = g.c0 ∧ forward v1 = g.c1 ∧ forward v2 = g.c2 ∧ forward v3 = g.c3) :=
  ⟨⟨0x41, by decide⟩, ⟨⟨0x41, 0x2F, 0x2B, 0x39⟩, 0, 63, 62, 61, by decide⟩⟩

theorem witness_NoCharacterIsAnError :
    (∃ (i : Instr) (s t u : State) (m : Memory),
      i = .encode ∧ exec i s = .next t ∧ exec i { s with mem := m } = .next u) ∧
    (∃ (i : Instr) (s t : State), i ∈ [Instr.encgrp, .enct1, .enct2, .decgrp, .decfin] ∧ exec i s = .next t) :=
  ⟨⟨.encode, withRegs 0 0xFFC 1, _, _, [(0, 0x3D)], rfl, rfl, rfl⟩, ⟨.decfin, withDin 0x3D3D3D3D, _, by decide, rfl⟩⟩

/-- The last index of each way and the first beyond it; an alphabet and a non-alphabet byte. -/
theorem witness_RomrdReadsForward :
    (withDin 63).din.toNat = (63 : BitVec 6).toNat ∧ 64 ≤ (withDin 64).din.toNat := by decide

theorem witness_RomrdReadsPairForward :
    (withDin 0xFFF).din.toNat = 64 * (63 : BitVec 6).toNat + (63 : BitVec 6).toNat ∧ 4096 ≤ (withDin 4096).din.toNat := by
  decide

theorem witness_RomrdReadsReverse :
    (withDin 0x41).din.toNat = (forward 0).toNat ∧
    ((withDin 0xFF).din.toNat = (0xFF : Byte).toNat ∧ ∀ v : BitVec 6, forward v ≠ 0xFF) ∧
    256 ≤ (withDin 256).din.toNat := by decide

theorem witness_RomrdReadsPairReverse :
    (withDin 0x412F).din.toNat = 256 * (forward 0).toNat + (forward 63).toNat ∧
    ((withDin 0x3D41).din.toNat = 256 * (0x3D : Byte).toNat + (0x41 : Byte).toNat ∧ ∀ v : BitVec 6, forward v ≠ 0x3D) ∧
    ((withDin 0x413D).din.toNat = 256 * (0x41 : Byte).toNat + (0x3D : Byte).toNat ∧ ∀ v : BitVec 6, forward v ≠ 0x3D) ∧
    65536 ≤ (withDin 65536).din.toNat := by decide

theorem witness_IdIsAConstant :
    (∃ s : State, s.rst = false ∧ s.inputs = [.host (.rd 0)]) ∧ (∃ s : State, s.inputs = [.host (.wr 0 0)]) :=
  ⟨⟨{ base with inputs := [.host (.rd 0)] }, rfl, rfl⟩, ⟨{ base with inputs := [.host (.wr 0 0)] }, rfl⟩⟩

theorem witness_ReservedIndicesReadZeroAndIgnoreWrites :
    (∃ s : State, 10 ≤ (10 : Fin 16).val ∧ s.inputs = [.host (.rd 10)]) ∧
    (∃ (s : State) (v : Word), 10 ≤ (15 : Fin 16).val ∧ s.inputs = [.host (.wr 15 v)]) :=
  ⟨⟨{ base with inputs := [.host (.rd 10)] }, by decide, rfl⟩, ⟨{ base with inputs := [.host (.wr 15 9)] }, 9, by decide, rfl⟩⟩

theorem witness_ResultRegistersChangeOnlyAtCompletionOrReset :
    (∃ s t : State, step s = .next t ∧ t.dout ≠ s.dout) ∧ (∃ s t : State, step s = .next t ∧ t.rlen ≠ s.rlen) ∧
    (∃ (s : State) (v : Word), s.inputs = [.host (.wr 8 v)]) ∧ (∃ (s : State) (v : Word), s.inputs = [.host (.wr 9 v)]) :=
  ⟨⟨{ withDin 0x00FFFFFF with cmd := 0x9, busy := true }, _, rfl, by decide⟩,
    ⟨{ base with rlen := 8, inputs := [.rstAssert] }, _, rfl, by decide⟩,
    ⟨{ base with inputs := [.host (.wr 8 5)] }, 5, rfl⟩, ⟨{ base with inputs := [.host (.wr 9 5)] }, 5, rfl⟩⟩

theorem witness_StatusReadsItsFieldsAndClearsOnWritingOne :
    (∃ s : State, s.rst = false ∧ s.inputs = [.host (.rd 2)]) ∧
    (∃ (s : State) (v : Word), s.rst = false ∧ s.inputs = [.host (.wr 2 v)]) :=
  ⟨⟨{ encodePending with inputs := [.host (.rd 2)] }, rfl, rfl⟩, ⟨{ base with inputs := [.host (.wr 2 0xE)] }, 0xE, rfl, rfl⟩⟩

theorem witness_IrqenHoldsOnlyItsEnable :
    (∃ (s : State) (v : Word), s.rst = false ∧ s.busy = true ∧ s.inputs = [.host (.wr 3 v)]) ∧
    (∃ s : State, s.rst = false ∧ s.inputs = [.host (.rd 3)]) :=
  ⟨⟨{ encodePending with inputs := [.host (.wr 3 1)] }, 1, rfl, rfl, rfl⟩, ⟨{ base with inputs := [.host (.rd 3)] }, rfl, rfl⟩⟩

theorem witness_OperandRegistersReadBackAsWritten :
    (∃ (s : State) (v : Word), s.busy = false ∧ s.rst = false ∧ s.inputs = [.host (.wr 4 v), .host (.rd 4)]) ∧
    (∃ (s : State) (v : Word), s.busy = false ∧ s.rst = false ∧ s.inputs = [.host (.wr 5 v), .host (.rd 5)]) ∧
    (∃ (s : State) (v : Word), s.busy = false ∧ s.rst = false ∧ s.inputs = [.host (.wr 6 v), .host (.rd 6)]) ∧
    (∃ (s : State) (v : Word), s.busy = false ∧ s.rst = false ∧ s.inputs = [.host (.wr 7 v), .host (.rd 7)]) :=
  ⟨⟨{ base with inputs := [.host (.wr 4 0xFFFFFFFF), .host (.rd 4)] }, 0xFFFFFFFF, rfl, rfl, rfl⟩,
    ⟨{ base with inputs := [.host (.wr 5 0), .host (.rd 5)] }, 0, rfl, rfl, rfl⟩,
    ⟨{ base with inputs := [.host (.wr 6 0xFFFFFFFF), .host (.rd 6)] }, 0xFFFFFFFF, rfl, rfl, rfl⟩,
    ⟨{ base with inputs := [.host (.wr 7 1), .host (.rd 7)] }, 1, rfl, rfl, rfl⟩⟩

theorem witness_ResultReadsWhileBusyAreFree :
    (∃ s : State, s.rst = false ∧ s.busy = true ∧ s.inputs = [.host (.rd 8)]) ∧
    (∃ s : State, s.rst = false ∧ s.busy = true ∧ s.inputs = [.host (.rd 9)]) ∧
    (∃ s : State, s.rst = false ∧ s.busy = false ∧ s.inputs = [.host (.rd 8)]) ∧
    (∃ s : State, s.rst = false ∧ s.busy = false ∧ s.inputs = [.host (.rd 9)]) ∧
    ∀ idx : Fin 16, idx ∈ [(1 : Fin 16), 4, 5, 6, 7] → ∀ b : Bool,
      ∃ s : State, s.rst = false ∧ s.busy = b ∧ s.inputs = [.host (.rd idx)] :=
  ⟨⟨{ encodePending with inputs := [.host (.rd 8)] }, rfl, rfl, rfl⟩,
    ⟨{ encodePending with inputs := [.host (.rd 9)] }, rfl, rfl, rfl⟩,
    ⟨{ base with inputs := [.host (.rd 8)] }, rfl, rfl, rfl⟩,
    ⟨{ base with inputs := [.host (.rd 9)] }, rfl, rfl, rfl⟩,
    fun idx _ b => ⟨{ encodePending with busy := b, inputs := [.host (.rd idx)] }, rfl, rfl, rfl⟩⟩

/-- `irq` rises by a completion and by the enable, and falls by each of its four events. -/
theorem witness_InterruptRisesAndFallsOnlyByItsEvents :
    (∃ s t : State, s.inputs = [.turn] ∧ step s = .next t ∧ s.irq = false ∧ t.irq = true) ∧
    (∃ s t : State, s.inputs = [.host (.wr 3 1)] ∧ step s = .next t ∧ s.irq = false ∧ t.irq = true) ∧
    (∃ s : State, s.busy = true ∧ s.doneIe = true ∧ s.inputs = []) ∧
    (∃ s t : State, s.inputs = [.rstAssert] ∧ step s = .next t ∧ s.irq = true ∧ t.irq = false) ∧
    (∃ s t : State, s.inputs = [.host (.wr 2 2)] ∧ step s = .next t ∧ s.irq = true ∧ t.irq = false) ∧
    (∃ s t : State, s.inputs = [.host (.wr 3 0)] ∧ step s = .next t ∧ s.irq = true ∧ t.irq = false) ∧
    (∃ s t : State, s.inputs = [.host (.wr 1 0)] ∧ step s = .next t ∧ s.irq = true ∧ t.irq = false) :=
  ⟨⟨{ nopPending with doneIe := true, inputs := [.turn] }, _, rfl, rfl, rfl, rfl⟩,
    ⟨{ base with done := true, inputs := [.host (.wr 3 1)] }, _, rfl, rfl, rfl, rfl⟩,
    ⟨{ nopPending with doneIe := true }, rfl, rfl, rfl⟩,
    ⟨{ base with done := true, doneIe := true, inputs := [.rstAssert] }, _, rfl, rfl, rfl, rfl⟩,
    ⟨{ base with done := true, doneIe := true, inputs := [.host (.wr 2 2)] }, _, rfl, rfl, rfl, rfl⟩,
    ⟨{ base with done := true, doneIe := true, inputs := [.host (.wr 3 0)] }, _, rfl, rfl, rfl, rfl⟩,
    ⟨{ base with done := true, doneIe := true, inputs := [.host (.wr 1 0)] }, _, rfl, rfl, rfl, rfl⟩⟩

theorem witness_WbusyRisesAndFallsOnlyByItsEvents :
    (∃ s t : State, step s = .next t ∧ s.wbusy = false ∧ t.wbusy = true) ∧
    (∃ (s : State) (v : Word), s.busy = true ∧ s.rst = false ∧ s.inputs = [.host (.wr 1 v)]) ∧
    (∃ s t : State, s.inputs = [.host (.wr 2 8)] ∧ step s = .next t ∧ s.wbusy = true ∧ t.wbusy = false) ∧
    (∃ s t : State, s.inputs = [.rstAssert] ∧ step s = .next t ∧ s.wbusy = true ∧ t.wbusy = false) :=
  ⟨⟨{ encodePending with inputs := [.host (.wr 7 2)] }, _, rfl, rfl, rfl⟩,
    ⟨{ encodePending with inputs := [.host (.wr 1 2)] }, 2, rfl, rfl, rfl⟩,
    ⟨{ encodePending with wbusy := true, inputs := [.host (.wr 2 8)] }, _, rfl, rfl, rfl, rfl⟩,
    ⟨{ base with wbusy := true, inputs := [.rstAssert] }, _, rfl, rfl, rfl, rfl⟩⟩

theorem witness_ResetClearsEveryRegister :
    (∃ s : State, s.busy = true ∧ s.inputs = [.rstAssert]) ∧
    (∃ s : State, s.rst = true ∧ s.inputs = [.host (.wr 4 1)]) ∧
    (∃ s : State, s.rst = true ∧ s.inputs = [.host (.rd 0)]) ∧ (∃ s : State, s.rst = true ∧ s.inputs = [.rstRelease]) :=
  ⟨⟨{ encodePending with inputs := [.rstAssert] }, rfl, rfl⟩,
    ⟨{ base with rst := true, inputs := [.host (.wr 4 1)] }, rfl, rfl⟩,
    ⟨{ base with rst := true, inputs := [.host (.rd 0)] }, rfl, rfl⟩,
    ⟨{ base with rst := true, inputs := [.rstRelease] }, rfl, rfl⟩⟩

/-- An idle block, an aborted ENCODE and DECODE whose checks would pass, one of each that would have ended in an error, and a
command that touches no memory. -/
theorem witness_ResetLeavesMemoryButTheAbortedRegion :
    base.busy = false ∧
    (encodePending.busy = true ∧ decodeCmd encodePending.cmd = .legal .encode ∧ encodePending.encodeCheck = none) ∧
    (decodePending.busy = true ∧ decodeCmd decodePending.cmd = .legal .decode ∧ decodePending.decodeCheck = none) ∧
    State.encodeCheck { encodePending with dst := 0xFFD } ≠ none ∧ State.decodeCheck { decodePending with len := 7 } ≠ none ∧
    (nopPending.busy = true ∧ decodeCmd nopPending.cmd ≠ .legal .encode ∧ decodeCmd nopPending.cmd ≠ .legal .decode) := by
  decide +kernel

/-- The last byte of the memory, and no byte at an address outside it. -/
theorem witness_HostMemoryWriteReadsBack :
    (∃ (s : State) (a : Word) (bs : List Byte), s.busy = false ∧ bs.length = 1 ∧ a.toNat + bs.length = s.memSize ∧
      s.inputs = [.host (.mw a bs), .host (.mr a bs.length)]) ∧
    (∃ (s : State) (a : Word) (bs : List Byte), s.busy = false ∧ bs.length = 0 ∧ s.memSize < a.toNat ∧
      s.inputs = [.host (.mw a bs), .host (.mr a bs.length)]) :=
  ⟨⟨{ base with inputs := [.host (.mw 0xFFF [7]), .host (.mr 0xFFF 1)] }, 0xFFF, [7], rfl, rfl, rfl, rfl⟩,
    ⟨{ base with inputs := [.host (.mw 0xFFFFFFFF []), .host (.mr 0xFFFFFFFF 0)] }, 0xFFFFFFFF, [], rfl, rfl,
      by decide, rfl⟩⟩

theorem decode_two : decodeCmd 0x2 = .legal .decode := by decide

/-- A disturbed DECODE of `n` characters. -/
def disturbedDecode (n : Word) : State := { decodePending with hazard := true, disturbed := true, len := n }

/-- Every kind of pending command that has a region of its own (a DECODE undisturbed, disturbed, and failing its checks) and
those that have none, a NOP and the idle block; a write of the first byte of the read region, of the
last byte of the write region; a disturbed command's turn. -/
theorem witness_HostWriteIntoAPendingRegionIsAHazard :
    (encodePending.busy = true ∧ decodeCmd encodePending.cmd = .legal .encode) ∧
    (decodePending.busy = true ∧ decodeCmd decodePending.cmd = .legal .decode ∧ decodePending.disturbed = false) ∧
    (∀ n, (disturbedDecode n).busy = true ∧ decodeCmd (disturbedDecode n).cmd = .legal .decode ∧
      (disturbedDecode n).disturbed = true ∧ (disturbedDecode n).len = n) ∧
    ((disturbedDecode 3).decodeCheck = none ∧ (disturbedDecode 4).decodeCheck = none ∧
      (disturbedDecode 5).decodeCheck ≠ none) ∧
    (decodeCmd nopPending.cmd ≠ .legal .encode ∧ decodeCmd nopPending.cmd ≠ .legal .decode) ∧ base.busy = false ∧
    (encodePending.pendingReads.contains 0x100 = true ∧ 0x100 + 1 ≤ encodePending.memSize) ∧
    (encodePending.pendingWrites.contains 0x207 = true ∧ encodePending.pendingWrites.contains 0x208 = false) ∧
    (∃ s t : State, step s = .next t ∧ s.hazard = true) ∧
    (∃ s : State, s.busy = true ∧ s.disturbed = true ∧ s.inputs = [.turn] ∧ s.pendingWrites.contains 0x200 = true) :=
  ⟨by decide +kernel, by decide +kernel,
    fun _ => ⟨rfl, decode_two, rfl, rfl⟩, by decide +kernel, by decide +kernel, rfl,
    by decide +kernel, by decide +kernel, ⟨{ base with hazard := true }, _, rfl, rfl⟩,
    ⟨{ encodePending with hazard := true, disturbed := true, inputs := [.turn] }, rfl, rfl, rfl, by decide +kernel⟩⟩

/-- The pending ENCODE meets the invariant. -/
theorem encodePending_inv : encodePending.Inv :=
  ⟨by decide +kernel, by unfold State.memInside; decide +kernel, fun _ => ⟨rfl, rfl, rfl⟩, by decide, by decide,
    (fun h => by cases h), (fun h => by cases h)⟩

/-- The byte next to the output region of the pending ENCODE is outside both its regions, the first byte of the memory is
outside the region of a pending DECODE, and a pending NOP has none. -/
theorem witness_HostWriteElsewhereCommutesWithCompletion :
    (encodePending.Inv ∧ encodePending.busy = true ∧ encodePending.disturbed = false) ∧
    (0x208#32).toNat + [0x00#8].length ≤ encodePending.memSize ∧
    (∀ x, (0x208#32).toNat ≤ x → x < (0x208#32).toNat + [0x00#8].length →
      ¬ (encodePending.src.toNat ≤ x ∧ x < encodePending.src.toNat + encodePending.len.toNat) ∧
      ¬ (encodePending.dst.toNat ≤ x ∧ x < encodePending.dst.toNat + 4 * ceilDiv encodePending.len.toNat 3)) ∧
    (∀ x, (0#32).toNat ≤ x → x < (0#32).toNat + [0x00#8].length →
      ¬ (decodePending.src.toNat ≤ x ∧ x < decodePending.src.toNat + decodePending.len.toNat)) ∧
    decodeCmd nopPending.cmd ≠ .legal .encode ∧ decodeCmd nopPending.cmd ≠ .legal .decode := by
  have e1 : encodePending.src.toNat = 0x100 ∧ encodePending.dst.toNat = 0x200 ∧ encodePending.len.toNat = 5 := by
    decide +kernel
  have e2 : decodePending.src.toNat = 0x40 ∧ ceilDiv 5 3 = 2 := by decide +kernel
  refine ⟨⟨encodePending_inv, rfl, rfl⟩, by decide +kernel, fun x h1 h2 => ?_, fun x h1 h2 => ?_, by decide, by decide⟩
  · rw [e1.1, e1.2.1, e1.2.2, e2.2]
    simp at h1 h2
    omega
  · rw [e2.1]
    simp at h2
    omega

theorem witness_EveryStepKeepsTheInvariant : ∃ s t : State, s.Inv ∧ s.busy = true ∧ step s = .next t :=
  ⟨encodePending, _, encodePending_inv, rfl, rfl⟩

theorem witness_PendingCommandCompletes :
    (∃ s : State, s.busy = true ∧ s.inputs = [] ∧ ∀ i ∈ s.inputs, i.wellFormed s.memSize = true) ∧
    (∃ s : State, s.busy = true ∧ s.inputs.length = 2 ∧ (∀ i ∈ s.inputs, i.wellFormed s.memSize = true) ∧
      ∀ i ∈ s.inputs, i ≠ .rstAssert ∧ ∀ idx v, i ≠ .host (.wr idx v)) :=
  ⟨⟨encodePending, rfl, rfl, fun i h => by cases h⟩,
    ⟨{ encodePending with inputs := [.host (.rd 2), .host (.mr 0xFFF 1)] }, rfl, rfl, by decide +kernel, fun i h => by
      simp at h
      rcases h with rfl | rfl <;> simp⟩⟩

/-- A stop at the first address outside the memory, and none at the last one inside it. -/
theorem witness_StepStopsOnlyOnHostAccessOutsideMemory :
    (∃ s : State, step s = .fault .hostAccessOutsideMemory ∧ s.inputs = [.host (.mr 0x1000 1)]) ∧
    (∃ s t : State, step s = .next t ∧ s.inputs = [.host (.mr 0xFFF 1)]) :=
  ⟨⟨{ base with inputs := [.host (.mr 0x1000 1)] }, rfl, rfl⟩, ⟨{ base with inputs := [.host (.mr 0xFFF 1)] }, _, rfl, rfl⟩⟩

theorem witness_CommandsReadOnlyTheirOperands :
    (∃ s t : State, exec .nop s = .next t) ∧ (∃ s t : State, exec .encode s = .next t) ∧
    (∃ s t : State, exec .decode s = .next t) ∧
    (∃ (i : Instr) (s t : State), i.readsDin = true ∧ exec i s = .next t) :=
  ⟨⟨base, _, rfl⟩, ⟨withRegs 0 0xFFC 1, _, rfl⟩, ⟨withRegs 0xFFC 0 4, _, rfl⟩, ⟨.join6, base, _, rfl, rfl⟩⟩

/-- With polls that see DONE = 0, and without. -/
theorem witness_RunPseudoInstructionWaitsForDone :
    (∃ s : State, s.busy = false ∧ s.rst = false ∧ s.inputs = (Pseudo.run .encode 2).expand ++ []) ∧
    (∃ s : State, s.busy = false ∧ s.rst = false ∧ s.inputs = (Pseudo.run .join6 0).expand ++ []) :=
  ⟨⟨{ base with inputs := (Pseudo.run .encode 2).expand }, rfl, rfl, rfl⟩,
    ⟨{ base with inputs := (Pseudo.run .join6 0).expand }, rfl, rfl, rfl⟩⟩

/-- A read across both ends of the write region of the pending ENCODE, of the last byte of the memory, and of no byte at an
address outside it. -/
theorem witness_HostMemoryReadDrawsOnlyInAPendingWriteRegion :
    (∃ (s : State) (a : Word) (n : Nat), s.inputs = [.host (.mr a n)] ∧ s.busy = true ∧ a.toNat = 0x1FF ∧ n = 10 ∧
      a.toNat + n ≤ s.memSize ∧ s.pendingWrites.contains (a.toNat + 0) = false ∧
      s.pendingWrites.contains (a.toNat + 1) = true ∧ s.pendingWrites.contains (a.toNat + 8) = true ∧
      s.pendingWrites.contains (a.toNat + 9) = false) ∧
    (∃ (s : State) (a : Word), s.inputs = [.host (.mr a 1)] ∧ a.toNat + 1 = s.memSize) ∧
    (∃ (s : State) (a : Word), s.inputs = [.host (.mr a 0)] ∧ s.memSize < a.toNat) :=
  ⟨⟨{ encodePending with inputs := [.host (.mr 0x1FF 10)] }, 0x1FF, 10, by decide +kernel⟩,
    ⟨{ base with inputs := [.host (.mr 0xFFF 1)] }, 0xFFF, rfl, rfl⟩,
    ⟨{ base with inputs := [.host (.mr 0xFFFFFFFF 0)] }, 0xFFFFFFFF, rfl, by decide⟩⟩

end Sys2Proof.Tests
end

section
/-! PROOFS. The register file (10_state.md): what a host access to each register does, which steps can change an operand,
a result register or WBUSY, and the frame of every command. -/

namespace Sys2Proof.Machine

/-! ## One register access as one step -/

theorem step_rd {s : State} {idx : Fin 16} {rest : List Input} (h : s.inputs = .host (.rd idx) :: rest) :
    step s = .next (State.hostRead { s with inputs := rest } (Reg.ofIndex idx)) := by
  simp only [step, h, hostStep]

theorem step_wr {s : State} {idx : Fin 16} {v : Word} {rest : List Input} (h : s.inputs = .host (.wr idx v) :: rest) :
    step s = .next (State.hostWrite { s with inputs := rest } (Reg.ofIndex idx) v) := by
  simp only [step, h, hostStep]

theorem Reg.ofIndex_of_ten_le : ∀ idx : Fin 16, 10 ≤ idx.val → Reg.ofIndex idx = .reserved := by decide

theorem Reg.eq_two_of_ofIndex_eq_status : ∀ idx : Fin 16, Reg.ofIndex idx = .status → idx = 2 := by decide

/-! ## Register reads -/

/-- A read with `rst` released of a register that is not open returns the register (10_state.md R38). -/
theorem State.hostRead_value {s : State} {r : Reg} (hr : s.rst = false) (h : s.busy = false ∨ r.openWhileBusy = false) :
    s.hostRead r = { s with reply := .word (s.regValue r) } := by
  rcases h with h | h <;> simp [State.hostRead, hr, h]

theorem State.hostRead_open {s : State} {r : Reg} (hr : s.rst = false) (hb : s.busy = true)
    (h : r.openWhileBusy = true) :
    s.hostRead r = { s with reply := .word (Config.drawWord s.draws), draws := s.draws + 1 } := by
  simp [State.hostRead, hr, hb, h]

theorem State.hostRead_reserved (s : State) : s.hostRead .reserved = { s with reply := .word 0 } := by
  by_cases hr : s.rst = true
  · simp [State.hostRead, hr]
  · exact State.hostRead_value (r := .reserved) (by simpa using hr) (.inr rfl)

/-- The whole step in which the host reads a register that is not open. -/
theorem step_rd_value {s : State} {idx : Fin 16} {rest : List Input} (hr : s.rst = false)
    (hv : s.busy = false ∨ (Reg.ofIndex idx).openWhileBusy = false) (h : s.inputs = .host (.rd idx) :: rest) :
    step s = .next { s with inputs := rest, reply := .word (s.regValue (Reg.ofIndex idx)) } := by
  rw [step_rd h, State.hostRead_value (s := { s with inputs := rest }) hr hv]
  cases Reg.ofIndex idx <;> rfl

/-! ## Register writes -/

/-- The registers whose writes are ignored in every state (10_state.md R22, R34 to R36). -/
def Reg.readOnly : Reg → Bool
  | .id | .dout | .rlen | .reserved => true
  | .cmd | .status | .irqen | .src | .dst | .len | .din => false

/-- The registers whose writes are dropped while BUSY = 1 (10_state.md R37). -/
def Reg.droppedWhileBusy : Reg → Bool
  | .cmd | .src | .dst | .len | .din => true
  | .id | .status | .irqen | .dout | .rlen | .reserved => false

theorem Reg.droppedWhileBusy_ofIndex : ∀ idx : Fin 16,
    (Reg.ofIndex idx).droppedWhileBusy = true ↔ idx ∈ [(1 : Fin 16), 4, 5, 6, 7] := by decide

theorem State.hostWrite_readOnly {r : Reg} (h : r.readOnly = true) (s : State) (v : Word) : s.hostWrite r v = s := by
  cases r <;> simp_all [State.hostWrite, Reg.readOnly]

theorem step_wr_readOnly {s : State} {idx : Fin 16} {v : Word} {rest : List Input}
    (hro : (Reg.ofIndex idx).readOnly = true) (h : s.inputs = .host (.wr idx v) :: rest) :
    step s = .next { s with inputs := rest } := by
  rw [step_wr h, State.hostWrite_readOnly hro]

theorem State.hostWrite_dropped {s : State} {r : Reg} (hr : s.rst = false) (hb : s.busy = true)
    (h : r.droppedWhileBusy = true) (v : Word) : s.hostWrite r v = s.setWbusy := by
  cases r <;> simp_all [State.hostWrite, State.unlessBusy, Reg.droppedWhileBusy]

theorem step_wr_dropped {s : State} {idx : Fin 16} {v : Word} {rest : List Input} (hb : s.busy = true)
    (hr : s.rst = false) (hidx : idx ∈ [(1 : Fin 16), 4, 5, 6, 7]) (h : s.inputs = .host (.wr idx v) :: rest) :
    step s = .next { s with inputs := rest, wbusy := true } := by
  have hd := (Reg.droppedWhileBusy_ofIndex idx).2 hidx
  rw [step_wr h, State.hostWrite_dropped (s := { s with inputs := rest }) hr hb hd]
  rfl

theorem State.hostWrite_status {s : State} (hr : s.rst = false) (v : Word) :
    s.hostWrite .status v = s.writeStatus v := by
  simp [State.hostWrite, hr]

theorem State.hostWrite_irqen {s : State} (hr : s.rst = false) (v : Word) :
    s.hostWrite .irqen v = s.writeIrqen v := by
  simp [State.hostWrite, hr]

/-- WBUSY after a register write: raised by a dropped write, cleared by STATUS bit 3, else as it was (10_state.md R28). -/
theorem State.hostWrite_wbusy (s : State) (r : Reg) (v : Word) :
    (s.hostWrite r v).wbusy =
      if s.rst then s.wbusy
      else if s.busy && r.droppedWhileBusy then true
      else if r = .status then s.wbusy && !v.getLsbD 3
      else s.wbusy := by
  cases hr : s.rst with
  | true => simp [State.hostWrite, hr]
  | false =>
    cases hb : s.busy <;> cases r <;> simp [State.hostWrite, State.unlessBusy, Reg.droppedWhileBusy, hr, hb]

theorem State.hostWrite_wbusy_rises {s : State} {r : Reg} {v : Word} (h0 : s.wbusy = false)
    (h1 : (s.hostWrite r v).wbusy = true) : s.rst = false ∧ s.busy = true ∧ r.droppedWhileBusy = true := by
  rw [State.hostWrite_wbusy, h0] at h1
  simpa using h1

theorem State.hostWrite_wbusy_falls {s : State} {r : Reg} {v : Word} (h1 : s.wbusy = true)
    (h0 : (s.hostWrite r v).wbusy = false) : s.rst = false ∧ r = .status ∧ v.getLsbD 3 = true := by
  rw [State.hostWrite_wbusy, h1] at h0
  grind

theorem State.hostWrite_results (s : State) (r : Reg) (v : Word) :
    (s.hostWrite r v).dout = s.dout ∧ (s.hostWrite r v).rlen = s.rlen := by
  rcases s.hostWrite_cases r v with h | ⟨_, _, h⟩ | ⟨_, _, h⟩ | ⟨_, _, h⟩ | ⟨_, _, _, h⟩ | ⟨_, _, h | h | h | h⟩ <;>
    rw [h] <;> exact ⟨rfl, rfl⟩

/-- CMD and the four operand registers of one state are those of the other. -/
def State.sameCommand (t s : State) : Prop :=
  t.cmd = s.cmd ∧ t.src = s.src ∧ t.dst = s.dst ∧ t.len = s.len ∧ t.din = s.din

theorem State.hostWrite_sameCommand {s : State} (hb : s.busy = true) (r : Reg) (v : Word) :
    (s.hostWrite r v).sameCommand s := by
  rcases s.hostWrite_cases r v with h | ⟨_, _, h⟩ | ⟨_, _, h⟩ | ⟨_, _, h⟩ | ⟨_, hb', _⟩ | ⟨_, hb', _⟩
  · rw [h]; exact ⟨rfl, rfl, rfl, rfl, rfl⟩
  · rw [h]; exact ⟨rfl, rfl, rfl, rfl, rfl⟩
  · rw [h]; exact ⟨rfl, rfl, rfl, rfl, rfl⟩
  · rw [h]; exact ⟨rfl, rfl, rfl, rfl, rfl⟩
  · simp [hb] at hb'
  · simp [hb] at hb'

/-! ## Operand registers -/

/-- The state with one of the operand registers SRC, DST, LEN, DIN replaced (10_state.md R30 to R33). -/
def State.withOperand (s : State) (r : Reg) (v : Word) : State :=
  match r with
  | .src => { s with src := v }
  | .dst => { s with dst := v }
  | .len => { s with len := v }
  | .din => { s with din := v }
  | .id | .cmd | .status | .irqen | .dout | .rlen | .reserved => s

theorem State.hostWrite_operand {s : State} {r : Reg} (hb : s.busy = false) (hr : s.rst = false)
    (h : r ∈ [Reg.src, .dst, .len, .din]) (v : Word) : s.hostWrite r v = s.withOperand r v := by
  simp only [List.mem_cons, List.not_mem_nil, or_false] at h
  rcases h with rfl | rfl | rfl | rfl <;> simp [State.hostWrite, State.unlessBusy, State.withOperand, hr, hb]

theorem State.withOperand_regValue {r : Reg} (h : r ∈ [Reg.src, .dst, .len, .din]) (s : State) (v : Word) :
    (s.withOperand r v).regValue r = v := by
  simp only [List.mem_cons, List.not_mem_nil, or_false] at h
  rcases h with rfl | rfl | rfl | rfl <;> rfl

@[simp] theorem State.withOperand_busy (s : State) (r : Reg) (v : Word) : (s.withOperand r v).busy = s.busy := by
  cases r <;> rfl

@[simp] theorem State.withOperand_rst (s : State) (r : Reg) (v : Word) : (s.withOperand r v).rst = s.rst := by
  cases r <;> rfl

@[simp] theorem State.withOperand_inputs (s : State) (r : Reg) (v : Word) :
    (s.withOperand r v).inputs = s.inputs := by
  cases r <;> rfl

/-- An idle block's operand register, written and then read. -/
theorem run_write_read_operand {s : State} {idx : Fin 16} {v : Word} {rest : List Input} (hb : s.busy = false)
    (hr : s.rst = false) (hop : Reg.ofIndex idx ∈ [Reg.src, .dst, .len, .din])
    (h : s.inputs = .host (.wr idx v) :: .host (.rd idx) :: rest) :
    Host.Core.run core 2 s =
      .next { s.withOperand (Reg.ofIndex idx) v with inputs := rest, reply := .word v } := by
  have hw := step_wr h
  rw [State.hostWrite_operand (s := { s with inputs := .host (.rd idx) :: rest }) hb hr hop] at hw
  have hrd := step_rd_value (s := State.withOperand { s with inputs := .host (.rd idx) :: rest } (Reg.ofIndex idx) v)
    (idx := idx) (rest := rest) (by simpa using hr) (.inl (by simpa using hb)) (by simp)
  rw [run_next 1 hw, run_next 0 hrd, State.withOperand_regValue hop]
  cases Reg.ofIndex idx <;> rfl

/-! ## STATUS and IRQEN -/

/-- The bits of STATUS above the four flags are ERRCODE, then zeros (10_state.md R24). -/
theorem State.statusWord_getLsbD_add_four (s : State) (i : Nat) :
    s.statusWord.getLsbD (i + 4) = s.errcode.getLsbD i := by
  simp only [State.statusWord, BitVec.getLsbD_append]
  grind

theorem State.statusWord_flags (s : State) :
    s.statusWord.getLsbD 0 = s.busy ∧ s.statusWord.getLsbD 1 = s.done ∧ s.statusWord.getLsbD 2 = s.err ∧
      s.statusWord.getLsbD 3 = s.wbusy := by
  refine ⟨?_, ?_, ?_, ?_⟩ <;> simp only [State.statusWord, BitVec.getLsbD_append] <;> simp

theorem State.statusWord_errcode (s : State) : s.statusWord.extractLsb' 4 4 = s.errcode := by
  refine BitVec.eq_of_getLsbD_eq fun i hi => ?_
  simp [Nat.add_comm 4 i, s.statusWord_getLsbD_add_four i, hi]

theorem State.statusWord_above (s : State) : s.statusWord.extractLsb' 8 24 = 0#24 := by
  refine BitVec.eq_of_getLsbD_eq fun i _ => ?_
  have h := s.statusWord_getLsbD_add_four (i + 4)
  simp [Nat.add_comm 8 i, h]

/-- A write of STATUS as its write-1-to-clear rule has it (10_state.md R24). -/
theorem State.writeStatus_eq (s : State) (v : Word) :
    s.writeStatus v = { s with
      done := if v.getLsbD 1 then false else s.done
      err := if v.getLsbD 2 then false else s.err
      errcode := if v.getLsbD 2 then 0 else s.errcode
      wbusy := if v.getLsbD 3 then false else s.wbusy } := by
  have clear : ∀ a b : Bool, (a && !b) = if b then false else a := by decide
  simp only [State.writeStatus, clear]

theorem State.irqenWord_eq (s : State) : s.irqenWord = if s.doneIe then 1 else 0 := by
  cases h : s.doneIe <;> simp [State.irqenWord, h]

/-! ## What a whole step can do -/

/-- A host operation is a register write, or it leaves every register as it was. -/
theorem hostStep_next {s t : State} {op : HostOp} (h : hostStep s op = .next t) :
    (∃ idx v, op = .wr idx v ∧ t = s.hostWrite (Reg.ofIndex idx) v) ∨
    ∃ m hz d k r, t = { s with mem := m, hazard := hz, disturbed := d, draws := k, reply := r } := by
  rcases hostStep_cases s op with ⟨idx, _, hs⟩ | ⟨idx, v, hop, hs⟩ | ⟨a, n, _, _, hs⟩ | ⟨a, bs, _, _, hs⟩ | ⟨_, hs⟩ <;>
    rw [hs] at h <;> cases h
  · obtain ⟨w, k, hk⟩ := s.hostRead_eq (Reg.ofIndex idx)
    exact .inr ⟨s.mem, s.hazard, s.disturbed, k, .word w, hk⟩
  · exact .inl ⟨idx, v, hop, rfl⟩
  · exact .inr ⟨s.mem, s.hazard, s.disturbed, _, _, rfl⟩
  · exact .inr ⟨_, _, _, s.draws, s.reply, rfl⟩

/-- What a step does to the registers: the block's step, a register write, another host operation, or the reset line
asserted or released. -/
theorem step_next {s t : State} (h : step s = .next t) :
    ((s.inputs = [] ∨ ∃ rest, s.inputs = .turn :: rest) ∧ blockStep s.pop = .next t) ∨
    (∃ idx v rest, s.inputs = .host (.wr idx v) :: rest ∧ t = s.pop.hostWrite (Reg.ofIndex idx) v) ∨
    (∃ m hz d k r, t = { s.pop with mem := m, hazard := hz, disturbed := d, draws := k, reply := r }) ∨
    (∃ rest, s.inputs = .rstAssert :: rest ∧ t = s.pop.assertReset) ∨
    t = s.pop.releaseReset := by
  rcases step_cases s with ⟨hin, hs⟩ | ⟨op, rest, hin, hs⟩ | ⟨rest, hin, hs⟩ | ⟨rest, hin, hs⟩ <;> rw [hs] at h
  · exact .inl ⟨hin, h⟩
  · rcases hostStep_next h with ⟨idx, v, rfl, ht⟩ | ht
    · exact .inr (.inl ⟨idx, v, rest, hin, ht⟩)
    · exact .inr (.inr (.inl ht))
  · exact .inr (.inr (.inr (.inl ⟨rest, hin, by cases h; rfl⟩)))
  · exact .inr (.inr (.inr (.inr (by cases h; rfl))))

/-! ## The frame of a completion -/

/-- A command changes at most BUSY, DONE, ERR, ERRCODE, DOUT, RLEN and the memory (40_control.md R91). -/
theorem exec_frame (i : Instr) (s : State) :
    ∃ er ec d n m, exec i s = .next { s with
      busy := false, done := true, err := er, errcode := ec, dout := d, rlen := n, mem := m } := by
  rcases exec_cases i s with ⟨e, h, _⟩ | ⟨_, h⟩ | ⟨_, v, h⟩ | ⟨_, v, n, h⟩ | ⟨_, _, h⟩ | ⟨_, _, h⟩ <;>
    exact ⟨_, _, _, _, _, h⟩

/-- Only ENCODE and DECODE write memory (20_memory.md R58). -/
theorem exec_keeps_mem {i : Instr} {s t : State} (h : exec i s = .next t) (he : i ≠ .encode) (hd : i ≠ .decode) :
    t.mem = s.mem := by
  rcases exec_cases i s with ⟨e, hx, _⟩ | ⟨_, hx⟩ | ⟨_, v, hx⟩ | ⟨_, v, n, hx⟩ | ⟨hi, _⟩ | ⟨hi, _⟩
  · cases h.symm.trans hx; rfl
  · cases h.symm.trans hx; rfl
  · cases h.symm.trans hx; rfl
  · cases h.symm.trans hx; rfl
  · exact absurd hi he
  · exact absurd hi hd

/-- Only commands that read DIN write DOUT (10_state.md R34, 30_encoding.md R75). -/
theorem exec_keeps_dout {i : Instr} {s t : State} (h : exec i s = .next t) (hi : i.readsDin = false) : t.dout = s.dout := by
  have no : ∀ l : List Instr, (∀ j ∈ l, j.readsDin = true) → i ∉ l := fun l hl hm => by simp [hl i hm] at hi
  rcases exec_cases i s with ⟨e, hx, _⟩ | ⟨_, hx⟩ | ⟨hm, _⟩ | ⟨hm, _⟩ | ⟨_, _, hx⟩ | ⟨_, _, hx⟩
  · cases h.symm.trans hx; rfl
  · cases h.symm.trans hx; rfl
  · exact absurd hm (no _ (by decide))
  · exact absurd hm (no _ (by decide))
  · cases h.symm.trans hx; rfl
  · cases h.symm.trans hx; rfl

/-- NOP, ROMRD, SPLIT6 and JOIN6 leave RLEN where they end without an error (10_state.md R35). -/
theorem exec_keeps_rlen {i : Instr} {s t : State} (h : exec i s = .next t)
    (hi : i ∈ [Instr.nop, .romrdF, .romrdPf, .romrdR, .romrdPr, .split6, .join6]) (ht : t.err = false) :
    t.rlen = s.rlen := by
  have no : ∀ j ∈ [Instr.encgrp, .enct1, .enct2, .decgrp, .decfin] ++ [Instr.encode, .decode],
      j ∉ [Instr.nop, .romrdF, .romrdPf, .romrdR, .romrdPr, .split6, .join6] := by decide
  rcases exec_cases i s with ⟨e, hx, _⟩ | ⟨_, hx⟩ | ⟨_, v, hx⟩ | ⟨hm, _⟩ | ⟨rfl, _⟩ | ⟨rfl, _⟩
  · cases h.symm.trans hx; simp at ht
  · cases h.symm.trans hx; rfl
  · cases h.symm.trans hx; rfl
  · exact absurd hi (no i (List.mem_append_left _ hm))
  · exact absurd hi (no .encode (by decide))
  · exact absurd hi (no .decode (by decide))

theorem complete_keeps_wbusy {s t : State} (h : complete s = .next t) : t.wbusy = s.wbusy := by
  obtain ⟨u, hu, hc⟩ := complete_cases s
  have hw : u.wbusy = s.wbusy := by
    rcases hc with ⟨i, _, hi⟩ | ⟨_, rfl⟩ | ⟨_, rfl⟩
    · obtain ⟨er, ec, d, n, m, hf⟩ := exec_frame i s
      rw [hi] at hf
      cases hf
      rfl
    · rfl
    · rfl
  rw [h] at hu
  cases hd : s.disturbed with
  | false => rw [State.settle_undisturbed hd] at hu; cases hu; exact hw
  | true => rw [State.settle_disturbed hd] at hu; cases hu; exact hw

theorem blockStep_keeps_wbusy {s t : State} (h : blockStep s = .next t) : t.wbusy = s.wbusy := by
  cases hb : s.busy with
  | false => rw [blockStep_idle hb] at h; cases h; rfl
  | true => rw [blockStep_busy hb] at h; exact complete_keeps_wbusy h

/-- The block's step leaves nothing pending. -/
theorem blockStep_not_busy {s t : State} (h : blockStep s = .next t) : t.busy = false := by
  obtain ⟨u, hu, hb, _⟩ := blockStep_next s
  rw [h] at hu
  cases hu
  exact hb

/-- A step that touches WBUSY is a register write or the assertion of `rst`. -/
theorem step_wbusy {s t : State} (h : step s = .next t) :
    t.wbusy = s.wbusy ∨
    (∃ idx v rest, s.inputs = .host (.wr idx v) :: rest ∧ t.wbusy = (s.hostWrite (Reg.ofIndex idx) v).wbusy) ∨
    (∃ rest, s.inputs = .rstAssert :: rest ∧ t.wbusy = false) := by
  rcases step_next h with ⟨_, hs⟩ | ⟨idx, v, rest, hin, rfl⟩ | ⟨_, _, _, _, _, rfl⟩ | ⟨rest, hin, rfl⟩ | rfl
  · exact .inl (blockStep_keeps_wbusy hs :)
  · refine .inr (.inl ⟨idx, v, rest, hin, ?_⟩)
    rw [State.hostWrite_wbusy, State.hostWrite_wbusy]
    rfl
  · exact .inl rfl
  · exact .inr (.inr ⟨rest, hin, rfl⟩)
  · exact .inl rfl

/-! ## The statements of 10_state.md -/

/-- Settles O6: the write is a dropped one; any step that leaves a command pending is no step of the block and no
reset, and the others leave CMD and the operands. -/
theorem writesWhileBusyAreDroppedAndRecorded : Obligations.WritesWhileBusyAreDroppedAndRecorded := by
  refine ⟨fun s idx v rest hb hr hidx h => step_wr_dropped hb hr hidx h, fun s t hb h htb => ?_⟩
  rcases step_next h with ⟨_, hs⟩ | ⟨idx, v, _, _, rfl⟩ | ⟨_, _, _, _, _, rfl⟩ | ⟨_, _, rfl⟩ | rfl
  · simp [blockStep_not_busy hs] at htb
  · exact State.hostWrite_sameCommand (s := s.pop) hb (Reg.ofIndex idx) v
  · exact ⟨rfl, rfl, rfl, rfl, rfl⟩
  · simp at htb
  · exact ⟨rfl, rfl, rfl, rfl, rfl⟩

/-- Settles O11: the frame of a completion, and who writes memory, DOUT and RLEN. -/
theorem everyCommandCompletesWithinItsFrame : Obligations.EveryCommandCompletesWithinItsFrame := by
  intro i s
  obtain ⟨er, ec, d, n, m, h⟩ := exec_frame i s
  exact ⟨_, h, rfl, rfl, rfl, rfl, rfl, rfl, rfl, rfl, rfl, rfl, rfl, rfl, rfl, rfl, rfl, rfl,
    exec_keeps_mem h, exec_keeps_dout h, fun hi _ ht => exec_keeps_rlen h hi ht⟩

/-- Settles O42: of the kinds of step only the block's step while BUSY = 1 and the assertion of `rst` touch DOUT or
RLEN. -/
theorem resultRegistersChangeOnlyAtCompletionOrReset : Obligations.ResultRegistersChangeOnlyAtCompletionOrReset := by
  refine ⟨fun s t h hc => ?_, fun s idx v rest hidx h => step_wr_readOnly (by rcases hidx with rfl | rfl <;> rfl) h⟩
  have same : ¬ (t.dout = s.dout ∧ t.rlen = s.rlen) := fun ⟨hd, hl⟩ => hc.elim (· hd) (· hl)
  rcases step_next h with ⟨hin, hs⟩ | ⟨idx, v, _, _, rfl⟩ | ⟨_, _, _, _, _, rfl⟩ | ⟨rest, hin, _⟩ | rfl
  · cases hb : s.busy with
    | true => exact .inl ⟨rfl, hin⟩
    | false =>
      rw [blockStep_idle (s := s.pop) hb] at hs
      cases hs
      exact absurd ⟨rfl, rfl⟩ same
  · exact absurd (s.pop.hostWrite_results (Reg.ofIndex idx) v) same
  · exact absurd ⟨rfl, rfl⟩ same
  · exact .inr ⟨rest, hin⟩
  · exact absurd ⟨rfl, rfl⟩ same

/-- Settles O48: a step that changes WBUSY is a register write or the assertion of `rst`, and `State.hostWrite_wbusy`
says which write does what. -/
theorem wbusyRisesAndFallsOnlyByItsEvents : Obligations.WbusyRisesAndFallsOnlyByItsEvents := by
  refine ⟨fun s t h h0 h1 => ?_, fun s idx v rest hb hr hidx h => ⟨_, step_wr_dropped hb hr hidx h, rfl⟩,
    fun s t h h1 h0 => ?_⟩
  · rcases step_wbusy h with hw | ⟨idx, v, rest, hin, hw⟩ | ⟨_, _, hw⟩
    · simp [hw, h0] at h1
    · obtain ⟨hr, hb, hd⟩ := State.hostWrite_wbusy_rises h0 (hw ▸ h1)
      exact ⟨hb, hr, idx, v, rest, hin, (Reg.droppedWhileBusy_ofIndex idx).1 hd⟩
    · simp [hw] at h1
  · rcases step_wbusy h with hw | ⟨idx, v, rest, hin, hw⟩ | ⟨rest, hin, _⟩
    · simp [hw, h1] at h0
    · obtain ⟨hr, hst, hv⟩ := State.hostWrite_wbusy_falls h1 (hw ▸ h0)
      exact .inr ⟨hr, v, rest, Reg.eq_two_of_ofIndex_eq_status idx hst ▸ hin, hv⟩
    · exact .inl ⟨rest, hin⟩

/-- Settles O40: ID is never open, and it is read-only. -/
theorem idIsAConstant : Obligations.IdIsAConstant :=
  ⟨fun _ _ hr h => step_rd_value hr (.inr rfl) h, fun _ _ _ h => step_wr_readOnly rfl h⟩

/-- Settles O41: indices 10 to 15 all name the reserved register. -/
theorem reservedIndicesReadZeroAndIgnoreWrites : Obligations.ReservedIndicesReadZeroAndIgnoreWrites := by
  intro s idx v rest hidx
  have hres := Reg.ofIndex_of_ten_le idx hidx
  refine ⟨fun h => ?_, fun h => step_wr_readOnly (by rw [hres]; rfl) h⟩
  rw [step_rd h, hres, State.hostRead_reserved]

/-- Settles O43: STATUS is never open, and its write is `State.writeStatus` in every state with `rst` released. -/
theorem statusReadsItsFieldsAndClearsOnWritingOne : Obligations.StatusReadsItsFieldsAndClearsOnWritingOne := by
  refine ⟨fun s rest hr h => ?_, fun s v rest hr h => ?_⟩
  · obtain ⟨hbusy, hdone, herr, hwbusy⟩ := s.statusWord_flags
    exact ⟨s.statusWord, step_rd_value hr (.inr rfl) h, hbusy, hdone, herr, hwbusy, s.statusWord_errcode,
      s.statusWord_above⟩
  · rw [step_wr h]
    exact congrArg _ ((State.hostWrite_status (s := { s with inputs := rest }) hr v).trans (State.writeStatus_eq _ v))

/-- Settles O44: IRQEN is never open, and its write does not look at BUSY. -/
theorem irqenHoldsOnlyItsEnable : Obligations.IrqenHoldsOnlyItsEnable := by
  refine ⟨fun s v rest hr h => ?_, fun s rest hr h => ?_⟩
  · rw [step_wr h]
    exact congrArg _ (State.hostWrite_irqen (s := { s with inputs := rest }) hr v)
  · rw [← s.irqenWord_eq]
    exact step_rd_value hr (.inr rfl) h

/-- Settles O45: the write of an idle block's operand register, then its read. -/
theorem operandRegistersReadBackAsWritten : Obligations.OperandRegistersReadBackAsWritten := fun _ _ _ hb hr =>
  ⟨run_write_read_operand hb hr (by decide), run_write_read_operand hb hr (by decide),
    run_write_read_operand hb hr (by decide), run_write_read_operand hb hr (by decide)⟩

/-- Settles O46: DOUT and RLEN are the registers that are open while BUSY = 1, the others are open in no state. -/
theorem resultReadsWhileBusyAreFree : Obligations.ResultReadsWhileBusyAreFree := by
  refine ⟨fun s idx rest hr hb hidx h => ?_, fun s rest hr hb => ?_, fun s rest hr => ?_⟩
  · have ho : (Reg.ofIndex idx).openWhileBusy = true := by rcases hidx with rfl | rfl <;> rfl
    rw [step_rd h, State.hostRead_open (s := { s with inputs := rest }) hr hb ho]
  · exact ⟨step_rd_value hr (.inl hb), step_rd_value hr (.inl hb)⟩
  · exact ⟨step_rd_value hr (.inr rfl), step_rd_value hr (.inr rfl), step_rd_value hr (.inr rfl),
      step_rd_value hr (.inr rfl), step_rd_value hr (.inr rfl)⟩

/-- Settles O54: every register is 0 by definition, the memory lists nothing, and no command is pending. -/
theorem resetStateHoldsTheResetValuesAndTheInvariant : Obligations.ResetStateHoldsTheResetValuesAndTheInvariant := by
  refine ⟨?_, rfl, rfl, ?_⟩
  · exact ⟨rfl, rfl, rfl, rfl, rfl, rfl, rfl, rfl, rfl, rfl, rfl, rfl, rfl⟩
  · exact {
      memWf := State.reset_wf
      memInside := fun c hc => absurd hc List.not_mem_nil
      busyFlags := fun h => absurd h Bool.false_ne_true
      errCode := by decide
      errCodeBound := by decide
      rstRegisters := fun h => absurd h Bool.false_ne_true
      disturbedPending := fun h => absurd h Bool.false_ne_true }

end Sys2Proof.Machine
end

section
/-! PROOFS. The buffer memory and the invariant (20_memory.md): what every step keeps, host accesses to the memory of an
idle and of a busy block, and that a host write outside a pending command's regions commutes with its completion. -/

namespace Sys2Proof.Machine

/-! ## The regions of a pending command -/

theorem Region.contains_of_shorter {r : Region} {x n : Nat} (hn : n ≤ r.size)
    (h : Region.contains ⟨r.start, n⟩ x = true) : r.contains x = true := by
  rw [Region.contains_iff] at h ⊢
  obtain ⟨h1, h2⟩ := h
  exact ⟨h1, Nat.lt_of_lt_of_le h2 (Nat.add_le_add_left hn _)⟩

/-- What a pending DECODE writes is no longer than its text (42_decoder.md R129). -/
theorem State.decodeOutSize_le (s : State) : s.decodeOutSize ≤ s.decodeIn.size := by
  have : s.decodeIn.size = s.len.toNat := rfl
  unfold State.decodeOutSize
  split
  · omega
  · split
    · omega
    · split <;> omega

/-- Only a pending ENCODE or DECODE has regions, and they lie in those that its checks are about (20_memory.md R58). -/
theorem State.pending_region_cases {s : State} {x : Nat}
    (h : s.pendingReads.contains x = true ∨ s.pendingWrites.contains x = true) :
    s.busy = true ∧
      ((decodeCmd s.cmd = .legal .encode ∧ (s.encodeIn.contains x = true ∨ s.encodeOut.contains x = true)) ∨
        (decodeCmd s.cmd = .legal .decode ∧ s.decodeIn.contains x = true)) := by
  cases hb : s.busy with
  | false => simp [State.pendingReads, State.pendingWrites, State.pending, hb] at h
  | true =>
    refine ⟨rfl, ?_⟩
    by_cases he : decodeCmd s.cmd = .legal .encode
    · have hp : s.pendingReads = s.encodeIn ∧ s.pendingWrites = s.encodeOut := by
        simp [State.pendingReads, State.pendingWrites, State.pending, hb, he]
      rw [hp.1, hp.2] at h
      exact .inl ⟨he, h⟩
    · by_cases hd : decodeCmd s.cmd = .legal .decode
      · have hp : s.pendingReads = s.decodeIn ∧ s.pendingWrites = ⟨s.decodeIn.start, s.decodeOutSize⟩ := by
          simp [State.pendingReads, State.pendingWrites, State.pending, State.decodeIn, hb, hd]
        rw [hp.1, hp.2] at h
        exact .inr ⟨hd, h.elim id fun hw => Region.contains_of_shorter s.decodeOutSize_le hw⟩
      · simp [State.pendingReads, State.pendingWrites, State.pending, he, hd] at h

/-- A host write disturbs the pending command exactly when it touches a byte of the command's regions
(70_reset_and_hazards.md R210). -/
theorem State.disturbs_iff (s : State) (r : Region) :
    s.disturbs r = true ↔
      ∃ x, r.contains x = true ∧ (s.pendingReads.contains x = true ∨ s.pendingWrites.contains x = true) := by
  simp only [State.disturbs, Bool.or_eq_true, Region.overlaps_iff_shared, and_or_left, exists_or]

theorem State.busy_of_disturbs {s : State} {r : Region} (h : s.disturbs r = true) : s.busy = true := by
  obtain ⟨x, _, hx⟩ := (s.disturbs_iff r).1 h
  exact (State.pending_region_cases hx).1

/-- The region whose bytes a reset leaves free lies inside the memory (70_reset_and_hazards.md R202). -/
theorem State.abortRegion_inside (s : State) :
    s.abortRegion.size = 0 ∨ s.abortRegion.start + s.abortRegion.size ≤ s.memSize := by
  unfold State.abortRegion
  split
  · next h =>
    simp only [Bool.and_eq_true, Option.isNone_iff_eq_none, State.encodeCheck_none, Region.inRange_iff] at h
    exact h.2.2.1
  · split
    · next h =>
      simp only [Bool.and_eq_true, Option.isNone_iff_eq_none, State.decodeCheck_none, Region.inRange_iff] at h
      exact h.2.1
    · exact .inl rfl

/-! ## What keeps the invariant -/

theorem State.Inv.rst_of_busy {s : State} (hs : s.Inv) (hb : s.busy = true) : s.rst = false := by
  cases hr : s.rst with
  | false => rfl
  | true => simp [(hs.rstRegisters hr).2.1] at hb

/-- Taking an input off the list keeps the invariant. -/
theorem State.Inv.pop {s : State} (hs : s.Inv) : s.pop.Inv := { hs with }

/-- A change of the memory, the hazard marks, the draws and the reply keeps the invariant where the new memory is canonical
and inside, and only a pending command is disturbed. -/
theorem State.Inv.withMemory {s : State} (hs : s.Inv) {m : Memory} {hz d : Bool} (k : Nat) (r : Reply)
    (hwf : m.wf = true) (hin : ∀ c ∈ m, c.1 < s.memSize) (hd : d = true → s.busy = true ∧ hz = true) :
    State.Inv { s with mem := m, hazard := hz, disturbed := d, draws := k, reply := r } :=
  { hs with memWf := hwf, memInside := hin, disturbedPending := hd }

theorem State.Inv.hostRead {s : State} (hs : s.Inv) (r : Reg) : (s.hostRead r).Inv := by
  obtain ⟨w, k, h⟩ := s.hostRead_eq r
  rw [h]
  exact hs.withMemory k _ hs.memWf hs.memInside hs.disturbedPending

theorem State.Inv.hostMemRead {s : State} (hs : s.Inv) (a n : Nat) : (s.hostMemRead a n).Inv :=
  hs.withMemory _ _ hs.memWf hs.memInside hs.disturbedPending

theorem State.Inv.hostMemWrite {s : State} (hs : s.Inv) {a : Nat} {bs : List Byte}
    (h : Region.inRange s.memSize ⟨a, bs.length⟩ = true) : (s.hostMemWrite a bs).Inv := by
  refine hs.withMemory _ _ (Memory.wf_writeBytes hs.memWf a bs)
    (Memory.inside_writeBytes hs.memInside ((Region.inRange_iff _ _).1 h)) fun hd => ?_
  rcases Bool.or_eq_true_iff.1 hd with hd | hd
  · obtain ⟨hb, hz⟩ := hs.disturbedPending hd
    exact ⟨hb, by simp [hz]⟩
  · exact ⟨State.busy_of_disturbs hd, by simp [hd]⟩

/-- A write of STATUS clears ERR and ERRCODE only together (10_state.md R27). -/
theorem State.Inv.writeStatus {s : State} (hs : s.Inv) (hr : s.rst = false) (v : Word) : (s.writeStatus v).Inv :=
  { hs with
    busyFlags := fun hb => by
      obtain ⟨hdone, herr, hcode⟩ := hs.busyFlags hb
      simp [hdone, herr, hcode]
    errCode := by
      rw [State.writeStatus_err, State.writeStatus_errcode]
      cases v.getLsbD 2 <;> simp [hs.errCode]
    errCodeBound := by
      rw [State.writeStatus_errcode]
      cases v.getLsbD 2 <;> simp [hs.errCodeBound]
    rstRegisters := fun h => absurd h (by simp [hr]) }

theorem State.Inv.accept {s : State} (hs : s.Inv) (hr : s.rst = false) (w : Word) : (s.accept w).Inv :=
  { hs with
    busyFlags := fun _ => ⟨rfl, rfl, rfl⟩
    errCode := by simp
    errCodeBound := by simp
    rstRegisters := fun h => absurd h (by simp [hr])
    disturbedPending := fun h => absurd h (by simp) }

theorem State.Inv.hostWrite {s : State} (hs : s.Inv) (r : Reg) (v : Word) : (s.hostWrite r v).Inv := by
  have released : s.rst = false → ∀ {p : Prop}, s.rst = true → p := fun hr _ h => absurd h (by simp [hr])
  rcases s.hostWrite_cases r v with h | ⟨hr, _, h⟩ | ⟨hr, _, h⟩ | ⟨hr, _, h⟩ | ⟨hr, _, _, h⟩ |
    ⟨hr, _, h | h | h | h⟩ <;> rw [h]
  · exact hs
  · exact { hs with rstRegisters := released hr }
  · exact hs.writeStatus hr v
  · exact { hs with rstRegisters := released hr }
  · exact hs.accept hr v
  · exact { hs with rstRegisters := released hr }
  · exact { hs with rstRegisters := released hr }
  · exact { hs with rstRegisters := released hr }
  · exact { hs with rstRegisters := released hr }

theorem hostStep_keeps_inv {s t : State} {op : HostOp} (hs : s.Inv) (h : hostStep s op = .next t) : t.Inv := by
  rcases hostStep_cases s op with ⟨idx, _, e⟩ | ⟨idx, v, _, e⟩ | ⟨a, n, _, _, e⟩ | ⟨a, bs, _, hr, e⟩ | ⟨_, e⟩ <;>
    rw [e] at h <;> cases h
  · exact hs.hostRead _
  · exact hs.hostWrite _ v
  · exact hs.hostMemRead _ n
  · exact hs.hostMemWrite hr

/-- The invariant of an idle block with `rst` released, of which less has to be shown. -/
theorem State.Inv.of_idle {t : State} (hwf : t.mem.wf = true) (hin : t.memInside) (hb : t.busy = false)
    (hr : t.rst = false) (hcode : t.err = true ↔ t.errcode ≠ 0) (hbound : t.errcode.toNat ≤ 6)
    (hd : t.disturbed = false) : t.Inv where
  memWf := hwf
  memInside := hin
  busyFlags := fun h => absurd h (by simp [hb])
  errCode := hcode
  errCodeBound := hbound
  rstRegisters := fun h => absurd h (by simp [hr])
  disturbedPending := fun h => absurd h (by simp [hd])

/-- The completion of a pending command keeps the invariant: what is written, by the command or by a hazard, lies in the
memory, and an error sets ERR and its code together. -/
theorem complete_keeps_inv {s t : State} (hs : s.Inv) (hb : s.busy = true) (h : complete s = .next t) : t.Inv := by
  obtain ⟨u, a, bs, hu, hmem, hin, herr, hbusy, _, _, hrst, hlast, _, hdist, _⟩ := complete_effect s hb
  have hsize : u.memSize = s.memSize := by simp [State.memSize, hlast]
  have hfit : bs.length = 0 ∨ a + bs.length ≤ s.memSize := by
    by_cases h0 : bs.length = 0
    · exact .inl h0
    · have := (hin (a + bs.length - 1) (by omega) (by omega)).2
      omega
  have hwf : u.mem.wf = true := hmem ▸ Memory.wf_writeBytes hs.memWf a bs
  have hinside : ∀ c ∈ u.mem, c.1 < s.memSize := hmem ▸ Memory.inside_writeBytes hs.memInside hfit
  have hrst' : u.rst = false := hrst.trans (hs.rst_of_busy hb)
  have hcode : (u.err = true ↔ u.errcode ≠ 0) ∧ u.errcode.toNat ≤ 6 := by
    rcases herr with ⟨he, hc⟩ | ⟨he, hc, hne⟩
    · rw [he, hc]
      exact ⟨hs.errCode, hs.errCodeBound⟩
    · exact ⟨iff_of_true he hne, hc⟩
  rw [hu] at h
  cases hd : s.disturbed with
  | false =>
    rw [State.settle_undisturbed hd] at h
    cases h
    exact .of_idle hwf (fun c hc => hsize ▸ hinside c hc) hbusy hrst' hcode.1 hcode.2 (hdist.trans hd)
  | true =>
    rw [State.settle_disturbed hd] at h
    cases h
    have hfree := Memory.inside_writeBytes (bs := freeBytes u.draws (s.pendingWrites.clip s.memSize).size) hinside
      (by rw [freeBytes_length]; exact Region.clip_inside s.pendingWrites s.memSize)
    exact .of_idle (State.scramble_wf hwf _) (fun c hc => hsize ▸ hfree c hc) hbusy hrst' hcode.1 hcode.2 rfl

theorem blockStep_keeps_inv {s t : State} (hs : s.Inv) (h : blockStep s = .next t) : t.Inv := by
  cases hb : s.busy with
  | false => rw [blockStep_idle hb] at h; cases h; exact hs
  | true => rw [blockStep_busy hb] at h; exact complete_keeps_inv hs hb h

theorem State.Inv.assertReset {s : State} (hs : s.Inv) : s.assertReset.Inv where
  memWf := State.scramble_wf hs.memWf _
  memInside := Memory.inside_writeBytes hs.memInside (by rw [freeBytes_length]; exact s.abortRegion_inside)
  busyFlags := fun _ => ⟨rfl, rfl, rfl⟩
  errCode := by simp
  errCodeBound := by simp
  rstRegisters := fun _ => ⟨rfl, rfl, rfl, rfl, rfl, rfl, rfl, rfl, rfl, rfl, rfl, rfl, rfl⟩
  disturbedPending := fun h => absurd h (by simp)

theorem State.Inv.releaseReset {s : State} (hs : s.Inv) : s.releaseReset.Inv :=
  { hs with rstRegisters := fun h => absurd h (by simp) }

/-- Settles O55: the block's step, each host operation and both edges of the reset line keep the invariant. -/
theorem everyStepKeepsTheInvariant : Obligations.EveryStepKeepsTheInvariant := by
  intro s t hs h
  rcases step_cases s with ⟨_, e⟩ | ⟨op, _, _, e⟩ | ⟨_, _, e⟩ | ⟨_, _, e⟩ <;> rw [e] at h
  · exact blockStep_keeps_inv hs.pop h
  · exact hostStep_keeps_inv hs.pop h
  · cases h
    exact hs.pop.assertReset
  · cases h
    exact hs.pop.releaseReset

/-! ## When a step stops -/

/-- A host operation stops exactly where it is not well formed, and is never refused (log 10). -/
theorem hostStep_outcome (s : State) (op : HostOp) :
    (op.wellFormed s.memSize = true ∧ ∃ t, hostStep s op = .next t) ∨
    (op.wellFormed s.memSize = false ∧ hostStep s op = .fault .hostAccessOutsideMemory) := by
  rcases hostStep_cases s op with ⟨_, rfl, e⟩ | ⟨_, _, rfl, e⟩ | ⟨_, _, rfl, hr, e⟩ | ⟨_, _, rfl, hr, e⟩ | h
  · exact .inl ⟨rfl, _, e⟩
  · exact .inl ⟨rfl, _, e⟩
  · exact .inl ⟨hr, _, e⟩
  · exact .inl ⟨hr, _, e⟩
  · exact .inr h

/-- A step answers a next state, or what happens next is a host operation that names a byte that does not exist. -/
theorem step_outcome (s : State) :
    ((∃ t, step s = .next t) ∧ ∀ op rest, s.inputs = .host op :: rest → op.wellFormed s.memSize = true) ∨
    (step s = .fault .hostAccessOutsideMemory ∧
      ∃ op rest, s.inputs = .host op :: rest ∧ op.wellFormed s.memSize = false) := by
  rcases step_cases s with ⟨hin, e⟩ | ⟨op, rest, hin, e⟩ | ⟨_, hin, e⟩ | ⟨_, hin, e⟩
  · obtain ⟨t, ht, _⟩ := blockStep_next s.pop
    refine .inl ⟨⟨t, e.trans ht⟩, fun op rest h => ?_⟩
    rcases hin with hin | ⟨_, hin⟩ <;> simp [hin] at h
  · rcases hostStep_outcome s.pop op with ⟨hw, t, ht⟩ | ⟨hw, hf⟩
    · refine .inl ⟨⟨t, e.trans ht⟩, fun op' rest' h => ?_⟩
      cases hin.symm.trans h
      exact hw
    · exact .inr ⟨e.trans hf, op, rest, hin, hw⟩
  · exact .inl ⟨⟨_, e⟩, fun op rest h => by simp [hin] at h⟩
  · exact .inl ⟨⟨_, e⟩, fun op rest h => by simp [hin] at h⟩

theorem State.hostWrite_memSize (s : State) (r : Reg) (v : Word) : (s.hostWrite r v).memSize = s.memSize := by
  rcases s.hostWrite_cases r v with h | ⟨_, _, h⟩ | ⟨_, _, h⟩ | ⟨_, _, h⟩ | ⟨_, _, _, h⟩ | ⟨_, _, h | h | h | h⟩ <;>
    rw [h] <;> rfl

/-- No step changes the size of the memory (log 1). -/
theorem step_memSize {s t : State} (h : step s = .next t) : t.memSize = s.memSize := by
  rcases step_next h with ⟨_, hs⟩ | ⟨idx, v, _, _, rfl⟩ | ⟨_, _, _, _, _, rfl⟩ | ⟨_, _, rfl⟩ | rfl
  · obtain ⟨u, hu, _, _, _, hlast, _⟩ := blockStep_next s.pop
    cases hs.symm.trans hu
    exact congrArg (fun w : Word => w.toNat + 1) hlast
  · exact State.hostWrite_memSize s.pop _ v
  · rfl
  · rfl
  · rfl

/-- Settles O57: a step answers a next state but for a host operation outside the memory, which faults. -/
theorem stepStopsOnlyOnHostAccessOutsideMemory : Obligations.StepStopsOnlyOnHostAccessOutsideMemory := by
  refine ⟨fun s r h => ?_, fun s => ⟨fun ⟨f, hf⟩ => ?_, fun ⟨op, rest, hin, hw⟩ => ?_⟩, fun s t => step_memSize⟩ <;>
    rcases step_outcome s with ⟨⟨t, ht⟩, hwf⟩ | ⟨hf', hop⟩
  · cases h.symm.trans ht
  · cases h.symm.trans hf'
  · cases hf.symm.trans ht
  · exact hop
  · simp [hwf op rest hin] at hw
  · exact ⟨_, hf'⟩

/-! ## One memory access as one step -/

theorem step_mr {s : State} {a : Word} {n : Nat} {rest : List Input} (h : s.inputs = .host (.mr a n) :: rest)
    (hr : n = 0 ∨ a.toNat + n ≤ s.memSize) :
    step s = .next (State.hostMemRead { s with inputs := rest } a.toNat n) := by
  have hin : Region.inRange (State.memSize { s with inputs := rest }) ⟨a.toNat, n⟩ = true := (Region.inRange_iff _ _).2 hr
  simp only [step, h, hostStep, hin, if_true]

theorem step_mw {s : State} {a : Word} {bs : List Byte} {rest : List Input} (h : s.inputs = .host (.mw a bs) :: rest)
    (hr : bs.length = 0 ∨ a.toNat + bs.length ≤ s.memSize) :
    step s = .next (State.hostMemWrite { s with inputs := rest } a.toNat bs) := by
  have hin : Region.inRange (State.memSize { s with inputs := rest }) ⟨a.toNat, bs.length⟩ = true :=
    (Region.inRange_iff _ _).2 hr
  simp only [step, h, hostStep, hin, if_true]

/-- A host write that disturbs nothing is a plain write (20_memory.md R50). -/
theorem State.hostMemWrite_plain {s : State} {a : Nat} {bs : List Byte} (h : s.disturbs ⟨a, bs.length⟩ = false) :
    s.hostMemWrite a bs = s.writeBytes a bs := by
  simp only [State.hostMemWrite, h, Bool.or_false]
  rfl

theorem State.disturbs_idle {s : State} (hb : s.busy = false) (r : Region) : s.disturbs r = false := by
  cases h : s.disturbs r with
  | false => rfl
  | true => simp [State.busy_of_disturbs h] at hb

theorem State.pendingWrites_idle {s : State} (hb : s.busy = false) : s.pendingWrites = .empty := by
  simp [State.pendingWrites, State.pending, hb]

theorem State.observe_getElem? (s : State) (w : Region) (a base : Nat) {n k : Nat} (hk : k < n) :
    (s.observe w a base n)[k]? =
      some (if w.contains (a + k) then Config.drawByte (base + k) else s.readByte (a + k)) := by
  rw [List.getElem?_eq_getElem (by simpa using hk), State.observe_getElem]

/-- A read that meets no write region returns the bytes of the memory. -/
theorem State.observe_empty (s : State) (a base n : Nat) : s.observe .empty a base n = s.mem.readBytes a n := by
  refine List.ext_getElem (by simp) fun k h1 h2 => ?_
  rw [State.observe_getElem, Memory.readBytes_getElem, Region.empty_contains]
  rfl

theorem State.hostMemRead_idle {s : State} (hb : s.busy = false) (a n : Nat) :
    s.hostMemRead a n = { s with reply := .bytes (s.mem.readBytes a n), draws := s.draws + n } := by
  rw [State.hostMemRead, State.pendingWrites_idle hb, State.observe_empty]

/-- Settles O51: an idle block has no region to disturb and none to draw from, so the write is a plain one and the read
returns the memory. -/
theorem hostMemoryWriteReadsBack : Obligations.HostMemoryWriteReadsBack := by
  intro s a bs rest hb hr h
  have hw := step_mw h hr
  rw [State.hostMemWrite_plain (State.disturbs_idle (by exact hb) _)] at hw
  have hrd := step_mr (s := State.writeBytes { s with inputs := .host (.mr a bs.length) :: rest } a.toNat bs)
    (a := a) (n := bs.length) (rest := rest) rfl hr
  rw [State.hostMemRead_idle (by exact hb)] at hrd
  refine ⟨_, (run_next 1 hw).trans (run_next 0 hrd), ?_, fun x hx => ?_, rfl, rfl⟩
  · exact congrArg Reply.bytes (Memory.readBytes_writeBytes s.mem a.toNat bs)
  · exact Memory.read_writeBytes_outside s.mem a.toNat bs hx

/-- Settles O60: the reply is what `State.observe` sees of the pending command's write region. -/
theorem hostMemoryReadDrawsOnlyInAPendingWriteRegion : Obligations.HostMemoryReadDrawsOnlyInAPendingWriteRegion := by
  intro s a n rest h hr
  refine ⟨State.observe { s with inputs := rest } s.pendingWrites a.toNat s.draws n, step_mr h hr, by simp,
    fun k hk hc => ?_, fun k hk hc => ?_⟩ <;> rw [State.observe_getElem? _ _ _ _ hk, hc]
  · rfl
  · rfl

/-! ## Writes outside the regions of a command -/

/-- Writes that share no address commute. -/
theorem Memory.writeBytes_comm {m : Memory} (hwf : m.wf = true) {a b : Nat} {xs ys : List Byte}
    (h : ∀ x, a ≤ x → x < a + xs.length → ¬ (b ≤ x ∧ x < b + ys.length)) :
    (m.writeBytes a xs).writeBytes b ys = (m.writeBytes b ys).writeBytes a xs := by
  refine Memory.ext_of_wf (Memory.wf_writeBytes (Memory.wf_writeBytes hwf a xs) b ys)
    (Memory.wf_writeBytes (Memory.wf_writeBytes hwf b ys) a xs) fun x => ?_
  simp only [Memory.lookup_writeBytes]
  by_cases hx : a ≤ x ∧ x < a + xs.length
  · rw [if_neg (h x hx.1 hx.2), if_pos hx, if_pos hx]
  · rw [if_neg hx, if_neg hx]

/-- A region of which no byte is written reads as before. -/
theorem State.readRegion_writeBytes (s : State) {r : Region} {a : Nat} {bs : List Byte}
    (h : ∀ x, a ≤ x → x < a + bs.length → r.contains x = false) : (s.writeBytes a bs).readRegion r = s.readRegion r := by
  refine Memory.readBytes_congr fun x h1 h2 => Memory.read_writeBytes_outside _ _ _ fun hx => ?_
  have hc := (Region.contains_iff r x).2 ⟨h1, h2⟩
  simp [h x hx.1 hx.2] at hc

/-- A command that writes what it makes of one region commutes with a write outside that region and outside its result. -/
theorem State.finishBytes_readRegion_writeBytes {s : State} (hwf : s.mem.wf = true) {a b : Nat} {bs : List Byte} {r : Region}
    (f : List Byte → List Byte) (hread : ∀ x, a ≤ x → x < a + bs.length → r.contains x = false)
    (hwrite : ∀ x, a ≤ x → x < a + bs.length → Region.contains ⟨b, (f (s.readRegion r)).length⟩ x = false) :
    (s.writeBytes a bs).finishBytes b (f ((s.writeBytes a bs).readRegion r)) =
      (s.finishBytes b (f (s.readRegion r))).writeBytes a bs := by
  simp only [← Bool.not_eq_true, Region.contains_iff] at hwrite
  rw [s.readRegion_writeBytes hread]
  simp only [State.finishBytes, State.finish, State.flagsCompleted, State.writeBytes, Memory.writeBytes_comm hwf hwrite]

/-- No address of `[a, a + n)` lies in a region of the command in CMD, as the table of 20_memory.md R58 has them. -/
def State.outsideRegions (s : State) (a n : Nat) : Prop :=
  ∀ x, a ≤ x → x < a + n →
    (decodeCmd s.cmd = .legal .encode → s.encodeIn.contains x = false ∧ s.encodeOut.contains x = false) ∧
    (decodeCmd s.cmd = .legal .decode → s.decodeIn.contains x = false)

/-- A write outside those regions is no hazard. -/
theorem State.disturbs_outsideRegions {s : State} {a n : Nat} (h : s.outsideRegions a n) :
    s.disturbs ⟨a, n⟩ = false := by
  rw [← Bool.not_eq_true, State.disturbs_iff]
  rintro ⟨x, hx, hc⟩
  obtain ⟨h1, h2⟩ := (Region.contains_iff _ x).1 hx
  obtain ⟨hen, hde⟩ := h x h1 h2
  rcases State.pending_region_cases hc with ⟨_, ⟨he, hin | hout⟩ | ⟨hd, hin⟩⟩
  · simp [(hen he).1] at hin
  · simp [(hen he).2] at hout
  · simp [hde hd] at hin

theorem State.romRead_writeBytes {n : Nat} (s : State) (w : Nat) (entry : BitVec w → BitVec n) (a : Nat)
    (bs : List Byte) : (s.writeBytes a bs).romRead w entry = (s.romRead w entry).writeBytes a bs := by
  unfold State.romRead
  rw [State.writeBytes_din, apply_ite (State.writeBytes · a bs)]
  rfl

/-- A command that is neither ENCODE nor DECODE does not look at the memory (20_memory.md R58). -/
theorem exec_writeBytes_of_ne {i : Instr} {s t : State} (he : i ≠ .encode) (hd : i ≠ .decode) (h : exec i s = .next t)
    (a : Nat) (bs : List Byte) : exec i (s.writeBytes a bs) = .next (t.writeBytes a bs) := by
  cases i
  case encode => exact absurd rfl he
  case decode => exact absurd rfl hd
  case romrdF | romrdPf | romrdR | romrdPr => cases h; exact congrArg _ (s.romRead_writeBytes _ _ a bs)
  all_goals (cases h; rfl)

theorem execEncode_writeBytes {s t : State} {a : Nat} {bs : List Byte} (hwf : s.mem.wf = true)
    (hout : ∀ x, a ≤ x → x < a + bs.length → s.encodeIn.contains x = false ∧ s.encodeOut.contains x = false)
    (h : execEncode s = .next t) : execEncode (s.writeBytes a bs) = .next (t.writeBytes a bs) := by
  have hc : (s.writeBytes a bs).encodeCheck = s.encodeCheck := rfl
  simp only [execEncode, hc] at h ⊢
  cases he : s.encodeCheck with
  | some e => rw [he] at h; cases h; rfl
  | none =>
    rw [he] at h
    cases h
    exact congrArg _ (State.finishBytes_readRegion_writeBytes hwf encodeBytes (fun x h1 h2 => (hout x h1 h2).1)
      fun x h1 h2 => by rw [s.encodeBytes_region_length]; exact (hout x h1 h2).2)

theorem execDecode_writeBytes {s t : State} {a : Nat} {bs : List Byte} (hwf : s.mem.wf = true)
    (hout : ∀ x, a ≤ x → x < a + bs.length → s.decodeIn.contains x = false)
    (h : execDecode s = .next t) : execDecode (s.writeBytes a bs) = .next (t.writeBytes a bs) := by
  have hc : (s.writeBytes a bs).decodeCheck = s.decodeCheck := rfl
  simp only [execDecode, hc] at h ⊢
  cases hd : s.decodeCheck with
  | some e => rw [hd] at h; cases h; rfl
  | none =>
    rw [hd] at h
    cases h
    have hlen : (decodeChars (s.readRegion s.decodeIn)).length ≤ s.decodeIn.size := by
      have := (s.decodeChars_region_length hd).1
      simp only [State.decodeIn] at this ⊢
      omega
    exact congrArg _ (State.finishBytes_readRegion_writeBytes hwf decodeChars hout fun x h1 h2 =>
      Bool.eq_false_iff.2 fun hx => absurd (Region.contains_of_shorter hlen hx) (by simp [hout x h1 h2]))

/-- A write outside the regions of an undisturbed command, before the completion, is the same write after it. -/
theorem complete_writeBytes {s t : State} {a : Nat} {bs : List Byte} (hwf : s.mem.wf = true) (hd : s.disturbed = false)
    (hout : s.outsideRegions a bs.length) (h : complete s = .next t) :
    complete (s.writeBytes a bs) = .next (t.writeBytes a bs) := by
  obtain ⟨u, hu, hc⟩ := complete_cases s
  rw [h, State.settle_undisturbed hd] at hu
  cases hu
  have hd' : (s.writeBytes a bs).disturbed = false := hd
  unfold complete
  rw [State.writeBytes_cmd]
  rcases hc with ⟨i, hi, hx⟩ | ⟨hi, rfl⟩ | ⟨hi, rfl⟩ <;> simp only [hi, State.settle_undisturbed hd']
  · by_cases he : i = .encode
    · subst he
      exact execEncode_writeBytes hwf (fun x h1 h2 => (hout x h1 h2).1 hi) hx
    · by_cases hde : i = .decode
      · subst hde
        exact execDecode_writeBytes hwf (fun x h1 h2 => (hout x h1 h2).2 hi) hx
      · exact exec_writeBytes_of_ne he hde hx a bs
  · rfl
  · rfl

/-- The whole step in which a pending command completes. -/
theorem step_turn_complete {s t : State} {rest : List Input} (hb : s.busy = true) (h : complete s = .next t) :
    step { s with inputs := .turn :: rest } = .next { t with inputs := rest } :=
  (blockStep_busy (s := { s with inputs := rest }) hb).trans (complete_inputs s t rest h)

/-- Settles O53: before the completion the write is a plain one since it meets no region, after it since the block is
idle, and a plain write outside the regions commutes with the completion. -/
theorem hostWriteElsewhereCommutesWithCompletion : Obligations.HostWriteElsewhereCommutesWithCompletion := by
  intro s a bs hs hb hd hr h
  have hout : s.outsideRegions a.toNat bs.length := fun x h1 h2 => by
    obtain ⟨hen, hde⟩ := h x h1 h2
    simp only [← Bool.not_eq_true, Region.contains_iff]
    exact ⟨hen, hde⟩
  obtain ⟨t, ht, htb, _, _, _, _, hlast, _⟩ := complete_next s
  have hsize : t.memSize = s.memSize := congrArg (fun w : Word => w.toNat + 1) hlast
  have before := step_mw (s := { s with inputs := [.host (.mw a bs), .turn] }) rfl hr
  rw [State.hostMemWrite_plain (State.disturbs_outsideRegions (by exact hout))] at before
  have after := step_mw (s := { t with inputs := [.host (.mw a bs)] }) rfl (by exact hsize ▸ hr)
  rw [State.hostMemWrite_plain (State.disturbs_idle (by exact htb) _)] at after
  have completed := step_turn_complete (s := s.writeBytes a.toNat bs) (rest := []) hb (complete_writeBytes hs.memWf hd hout ht)
  calc Host.Core.run core 2 { s with inputs := [.host (.mw a bs), .turn] }
      = .next { t.writeBytes a.toNat bs with inputs := [] } := (run_next 1 before).trans (run_next 0 completed)
    _ = Host.Core.run core 2 { s with inputs := [.turn, .host (.mw a bs)] } :=
        ((run_next 1 (step_turn_complete hb ht)).trans (run_next 0 after)).symm

end Sys2Proof.Machine
end

section
/-! PROOFS. The command encoding (30_encoding.md): the decoder's three answers, its agreement with the encoder, what a
command reads, and the run of the pseudo-instruction RUN. -/

namespace Sys2Proof

/-! ## The decoder and the encoder (R70 to R73, R77) -/

theorem decodeEncode_statement (i : Instr) : Laws.DecodeEncode.Statement i := by
  cases i
  exacts [Laws.DecodeEncode.nop, Laws.DecodeEncode.encode, Laws.DecodeEncode.decode, Laws.DecodeEncode.encgrp,
    Laws.DecodeEncode.enct1, Laws.DecodeEncode.enct2, Laws.DecodeEncode.decgrp, Laws.DecodeEncode.decfin,
    Laws.DecodeEncode.romrdF, Laws.DecodeEncode.romrdPf, Laws.DecodeEncode.romrdR, Laws.DecodeEncode.romrdPr,
    Laws.DecodeEncode.split6, Laws.DecodeEncode.join6]

@[simp] theorem decodeCmd_encode (i : Instr) : decodeCmd (encode i) = .legal i := by
  obtain ⟨_, h, _⟩ := decodeEncode_statement i
  exact h

/-- The three fields are the whole word (R70). -/
theorem append_fields (w : Word) : rsvOf w ++ wayOf w ++ opcOf w = w := by
  refine BitVec.eq_of_getLsbD_eq fun k hk => ?_
  simp only [rsvOf, wayOf, opcOf, BitVec.getLsbD_append, BitVec.getLsbD_extractLsb']
  grind

theorem cmdWord_fields {w : Word} (h : rsvOf w = 0) : cmdWord (wayOf w) (opcOf w) = w :=
  (congrArg (· ++ wayOf w ++ opcOf w) h.symm).trans (append_fields w)

theorem encode_romReadOfWay : ∀ way : BitVec 2, encode (romReadOfWay way) = cmdWord way 0x08 := by decide

/-- Every opcode up to 0x0A but that of ROMRD names a command whose word has that OPC and WAY = 0 (R72). -/
theorem instrOfOpc_legal {opc : BitVec 8} (h : opc.toNat ≤ 0x0A) (h8 : opc ≠ 0x08) :
    ∃ i, instrOfOpc opc = .legal i ∧ encode i = cmdWord 0 opc := by
  obtain ⟨k, hk, rfl⟩ : ∃ k ≤ 0x0A, opc = BitVec.ofNat 8 k := ⟨opc.toNat, h, by simp⟩
  have hk8 : k ≠ 8 := fun h => h8 (congrArg (BitVec.ofNat 8) h)
  rcases Nat.lt_or_gt_of_ne hk8 with hlt | hgt
  · interval_cases k <;> exact ⟨_, rfl, rfl⟩
  · interval_cases k <;> exact ⟨_, rfl, rfl⟩

/-- What the decoder can answer, each with its guard; a legal word is the encoding of its command (R73). -/
theorem decodeCmd_cases (w : Word) :
    (0x0A < (opcOf w).toNat ∧ decodeCmd w = .illegal) ∨
    ((opcOf w).toNat ≤ 0x0A ∧ (rsvOf w ≠ 0 ∨ (wayOf w ≠ 0 ∧ opcOf w ≠ 0x08)) ∧ decodeCmd w = .reserved) ∨
    ((opcOf w).toNat ≤ 0x0A ∧ ¬ (rsvOf w ≠ 0 ∨ (wayOf w ≠ 0 ∧ opcOf w ≠ 0x08)) ∧
      ∃ i, decodeCmd w = .legal i ∧ encode i = w) := by
  by_cases hopc : 0x0A < (opcOf w).toNat
  · exact .inl ⟨hopc, if_pos hopc⟩
  have hle := Nat.not_lt.1 hopc
  rw [decodeCmd, if_neg hopc]
  by_cases hrsv : rsvOf w ≠ 0
  · exact .inr (.inl ⟨hle, .inl hrsv, if_pos hrsv⟩)
  rw [if_neg hrsv]
  by_cases hway : opcOf w ≠ 0x08 ∧ wayOf w ≠ 0
  · exact .inr (.inl ⟨hle, .inr hway.symm, if_pos hway⟩)
  rw [if_neg hway]
  have hw := cmdWord_fields (not_not.1 hrsv)
  refine .inr (.inr ⟨hle, fun h => h.elim hrsv fun h => hway h.symm, ?_⟩)
  by_cases h8 : opcOf w = 0x08
  · exact ⟨_, if_pos h8, (encode_romReadOfWay _).trans (h8 ▸ hw)⟩
  · have hzero : wayOf w = 0 := not_not.1 fun h => hway ⟨h8, h⟩
    obtain ⟨i, hi, he⟩ := instrOfOpc_legal hle h8
    exact ⟨i, (if_neg h8).trans hi, he.trans (hzero ▸ hw)⟩

/-- Settles O3: a legal word is the encoding of its command by `decodeCmd_cases`, and `decodeCmd_encode` is the other
direction. -/
theorem decodeAndEncodeAgree : Obligations.DecodeAndEncodeAgree := by
  refine fun w i => ⟨fun h => ?_, fun h => h ▸ decodeCmd_encode i⟩
  rcases decodeCmd_cases w with ⟨_, hd⟩ | ⟨_, _, hd⟩ | ⟨_, _, j, hd, hj⟩ <;> cases h.symm.trans hd
  exact hj

/-- The fourteen commands in the order of the opcode map (R72). -/
def commands : List Instr :=
  [.nop, .encode, .decode, .encgrp, .enct1, .enct2, .decgrp, .decfin, .romrdF, .romrdPf, .romrdR, .romrdPr, .split6, .join6]

theorem mem_commands (i : Instr) : i ∈ commands := by cases i <;> decide

/-- Settles O2: the opcode map lists each command with its encoding, so O3 says which words decode to it. -/
theorem legalWordsAreExactlyTheOpcodeMap : Obligations.LegalWordsAreExactlyTheOpcodeMap := by
  intro w i
  rw [decodeAndEncodeAgree w i]
  change encode i = w ↔ (w, i) ∈ commands.map fun j => (encode j, j)
  simp [mem_commands]

/-- Settles O4: the guards of `decodeCmd_cases` exclude each other, and a reserved word is no command's encoding, since
it does not decode to a command. -/
theorem otherWordsAreIllegalOrReserved : Obligations.OtherWordsAreIllegalOrReserved := by
  intro w
  change (_ ↔ 0x0B ≤ (opcOf w).toNat) ∧ (_ ↔ (opcOf w).toNat ≤ 0x0A ∧ (rsvOf w ≠ 0 ∨ (wayOf w ≠ 0 ∧ opcOf w ≠ 0x08))) ∧
    (_ ↔ (opcOf w).toNat ≤ 0x0A ∧ _)
  rcases decodeCmd_cases w with ⟨hopc, hd⟩ | ⟨hopc, hbits, hd⟩ | ⟨hopc, hbits, i, hd, hi⟩ <;> rw [hd]
  · exact ⟨iff_of_true rfl hopc, iff_of_false nofun (by omega), iff_of_false nofun (by omega)⟩
  · refine ⟨iff_of_false nofun (by omega), iff_of_true rfl ⟨hopc, hbits⟩, iff_of_true rfl ⟨hopc, fun i hi => ?_⟩⟩
    simp [hi] at hd
  · exact ⟨iff_of_false nofun (by omega), iff_of_false nofun fun h => hbits h.2, iff_of_false nofun fun h => h.2 i hi.symm⟩

/-- Settles O1: each word is the encoding of its command. -/
theorem wordsWrittenOutFromTheFieldsDecode : Obligations.WordsWrittenOutFromTheFieldsDecode :=
  ⟨decodeCmd_encode .encode, decodeCmd_encode .romrdPr, decodeCmd_encode .join6⟩

end Sys2Proof

namespace Sys2Proof.Machine

/-! ## What a command reads (R75) -/

theorem execEncode_din {s t : State} (d : Word) (h : execEncode s = .next t) :
    execEncode { s with din := d } = .next { t with din := d } := by
  have hc : State.encodeCheck { s with din := d } = s.encodeCheck := rfl
  simp only [execEncode, hc] at h ⊢
  cases he : s.encodeCheck <;> rw [he] at h <;> cases h <;> rfl

theorem execDecode_dst_din {s t : State} (b d : Word) (h : execDecode s = .next t) :
    execDecode { s with dst := b, din := d } = .next { t with dst := b, din := d } := by
  have hc : State.decodeCheck { s with dst := b, din := d } = s.decodeCheck := rfl
  simp only [execDecode, hc] at h ⊢
  cases hd : s.decodeCheck <;> rw [hd] at h <;> cases h <;> rfl

/-- The state with SRC, DST, LEN and the memory replaced, none of which a command that reads DIN looks at (R75). -/
def State.withRegions (s : State) (a b l : Word) (m : Memory) : State := { s with src := a, dst := b, len := l, mem := m }

theorem State.romRead_withRegions {n : Nat} (s : State) (w : Nat) (entry : BitVec w → BitVec n) (a b l : Word)
    (m : Memory) : (s.withRegions a b l m).romRead w entry = (s.romRead w entry).withRegions a b l m := by
  rcases s.romRead_cases w entry with ⟨hd, h⟩ | ⟨hd, h⟩ <;> rw [h]
  · exact if_neg (Nat.not_lt.2 hd)
  · exact if_pos hd

theorem exec_withRegions {i : Instr} {s t : State} (hi : i.readsDin = true) (h : exec i s = .next t) (a b l : Word)
    (m : Memory) : exec i (s.withRegions a b l m) = .next (t.withRegions a b l m) := by
  cases i
  case nop | encode | decode => cases hi
  case romrdF | romrdPf | romrdR | romrdPr => cases h; exact congrArg _ (s.romRead_withRegions _ _ a b l m)
  all_goals (cases h; rfl)

/-- Settles O58: the checks of ENCODE and DECODE read the region operands alone, the other commands DIN alone. -/
theorem commandsReadOnlyTheirOperands : Obligations.CommandsReadOnlyTheirOperands := by
  refine ⟨fun s t a b l d m h => ?_, fun s t d h => execEncode_din d h, fun s t b d h => execDecode_dst_din b d h,
    fun i s t a b l m hi h => exec_withRegions hi h a b l m⟩
  cases h
  rfl

/-! ## RUN (R79) -/

/-- A write to CMD of an idle block with `rst` released is an acceptance (40_control.md R90). -/
theorem State.hostWrite_cmd_idle {s : State} (hb : s.busy = false) (hr : s.rst = false) (w : Word) :
    s.hostWrite .cmd w = s.accept w := by
  simp [State.hostWrite, State.unlessBusy, hb, hr]

/-- The whole step in which the host issues a word to an idle block. -/
theorem step_wrReg_cmd {s : State} {w : Word} {rest : List Input} (hb : s.busy = false) (hr : s.rst = false)
    (h : s.inputs = wrReg .cmd w :: rest) : step s = .next { s.accept w with inputs := rest } :=
  (step_wr h).trans (congrArg _ (State.hostWrite_cmd_idle (s := { s with inputs := rest }) hb hr w))

/-- The whole step in which the host reads STATUS (10_state.md R24, R38). -/
theorem step_rdReg_status {s : State} {rest : List Input} (hr : s.rst = false) (h : s.inputs = rdReg .status :: rest) :
    step s = .next { s with inputs := rest, reply := .word s.statusWord } :=
  step_rd_value hr (.inr rfl) h

/-- Polls of STATUS change nothing but the reply, which is the STATUS they all see. -/
theorem run_polls {s : State} {n : Nat} {rest : List Input} (hr : s.rst = false)
    (h : s.inputs = List.replicate n (rdReg .status) ++ rest) :
    ∃ r, Host.Core.run core n s = .next { s with inputs := rest, reply := r } ∧ (1 ≤ n → r = .word s.statusWord) := by
  induction n generalizing s with
  | zero => exact ⟨s.reply, by cases h; rfl, nofun⟩
  | succ n ih =>
    obtain ⟨r, hrun, hreply⟩ := ih (s := { s with
      inputs := List.replicate n (rdReg .status) ++ rest, reply := .word s.statusWord }) hr rfl
    refine ⟨r, (run_next n (step_rdReg_status hr h)).trans hrun, fun _ => ?_⟩
    cases n with
    | zero => cases hrun; rfl
    | succ n => exact hreply (Nat.le_add_left 1 n)

/-- The completion of a legal word that no hazard disturbed is the meaning of its command (40_control.md R91). -/
theorem complete_legal {s : State} {i : Instr} (hd : s.disturbed = false) (hi : decodeCmd s.cmd = .legal i) :
    complete s = exec i s := by
  simp only [complete, hi, State.settle_undisturbed hd]

/-- The turn of a block with an issued command pending, and the read of STATUS that follows. -/
theorem run_turn_status {s : State} {i : Instr} {rest : List Input} (hb : s.busy = true) (hr : s.rst = false)
    (hd : s.disturbed = false) (hc : s.cmd = encode i) (h : s.inputs = .turn :: rdReg .status :: rest) :
    ∃ t w, Host.Core.run core 2 s = .next t ∧ t.reply = .word w ∧ w.getLsbD 1 = true ∧ t.busy = false ∧
      t.cmd = encode i ∧ t.inputs = rest := by
  obtain ⟨er, ec, d, n, m, hx⟩ := exec_frame i s
  have completed := step_turn_complete (rest := rdReg .status :: rest) hb
    ((complete_legal hd (hc ▸ decodeCmd_encode i)).trans hx)
  rw [← h] at completed
  exact ⟨_, _, (run_next 1 completed).trans (run_next 0 (step_rdReg_status hr rfl)), rfl,
    (State.statusWord_flags _).2.1, rfl, hc, rfl⟩

/-- Settles O59: from the acceptance on the polls see DONE = 0 of the pending command, the turn completes it, and the
last read sees its DONE. -/
theorem runPseudoInstructionWaitsForDone : Obligations.RunPseudoInstructionWaitsForDone := by
  intro s i polls rest hb hr h
  have polled : ∀ j k, polls = j + k → ∃ r, Host.Core.run core (j + 1) s = .next { s.accept (encode i) with
      inputs := List.replicate k (rdReg .status) ++ .turn :: rdReg .status :: rest, reply := r } ∧
      (1 ≤ j → r = .word (s.accept (encode i)).statusWord) := by
    rintro j k rfl
    have issued := step_wrReg_cmd hb hr h
    obtain ⟨r, hrun, hreply⟩ := run_polls (s := { s.accept (encode i) with inputs := waitInputs (j + k) ++ rest })
      (n := j) (rest := List.replicate k (rdReg .status) ++ .turn :: rdReg .status :: rest) hr
      (by simp [waitInputs, ← List.replicate_append_replicate])
    exact ⟨r, (run_next j issued).trans hrun, hreply⟩
  refine ⟨fun j hj hjp => ?_, ?_⟩
  · obtain ⟨r, hrun, hreply⟩ := polled j (polls - j) (by omega)
    exact ⟨_, _, hrun, hreply hj, (State.statusWord_flags _).2.1⟩
  · obtain ⟨r, hrun, _⟩ := polled polls 0 rfl
    rw [run_add (polls + 1) 2 hrun]
    exact run_turn_status rfl hr rfl rfl rfl

end Sys2Proof.Machine
end

section
/-! PROOFS. Acceptance, completion and progress (40_control.md): what a write to CMD and a turn of the block do as whole
steps, that an error completion is `State.raise` and nothing else, and the run through all that is left to happen. -/

namespace Sys2Proof.Machine

/-! ## Acceptance and completion as whole steps (R90, R91) -/

/-- The whole step in which the block takes its turn while a command is pending. -/
theorem step_turn {s : State} {rest : List Input} (hb : s.busy = true) (h : s.inputs = .turn :: rest) :
    step s = complete { s with inputs := rest } := by
  simp only [step, h]
  exact blockStep_busy (s := { s with inputs := rest }) hb

/-- The whole step of a pending command when nothing else is left to happen (log 4). -/
theorem step_no_input {s : State} (hb : s.busy = true) (h : s.inputs = []) : step s = complete s := by
  simp only [step, h]
  exact blockStep_busy hb

/-- The turn of a block with an undisturbed legal word pending is the meaning of its command. -/
theorem step_turn_legal {s : State} {i : Instr} {rest : List Input} (hb : s.busy = true) (hd : s.disturbed = false)
    (hi : decodeCmd s.cmd = .legal i) (h : s.inputs = .turn :: rest) : step s = exec i { s with inputs := rest } :=
  (step_turn hb h).trans (complete_legal hd hi)

/-- A command word has the opcode table's 32 bits (30_encoding.md R71). -/
@[simp] theorem tableWord_toNat (w : Word) : tableWord 32 w.toNat = w := by
  simp [tableWord, Nat.mod_eq_of_lt w.isLt]

/-- The word the interface places is accepted, and the turn comes next (log 11). -/
theorem State.withFetchWord_toNat (s : State) (w : Word) :
    s.withFetchWord 32 w.toNat = { s.accept w with rst := false, inputs := .turn :: s.inputs } := by
  simp only [State.withFetchWord, tableWord_toNat]

/-- Settles O5: the write is an acceptance, whose mark `disturbed` is cleared. -/
theorem cmdWriteWhileIdleIsAccepted : Obligations.CmdWriteWhileIdleIsAccepted :=
  fun _ _ _ hb hr h => ⟨false, step_wrReg_cmd hb hr h⟩

/-- Settles O7: the turn, named or the only thing left, is the completion, which for a legal word is `exec`; the placed
word decodes to its command. -/
theorem completionRunsTheDecodedCommand : Obligations.CompletionRunsTheDecodedCommand := by
  refine ⟨fun s i rest hb hd hi h => step_turn_legal hb hd hi h,
    fun s i hb hd hi h => (step_no_input hb h).trans (complete_legal hd hi), fun s i => ?_⟩
  rw [State.withFetchWord_toNat]
  exact step_turn_legal rfl rfl (decodeCmd_encode i) rfl

/-- Settles O12: NOP's meaning is the flags of completion, O3 says which word is NOP, and issuing it is an acceptance
and a turn. -/
theorem nopOnlyCompletes : Obligations.NopOnlyCompletes := by
  have hnop : ∀ w : Word, decodeCmd w = .legal .nop ↔ w = 0 := fun w => (decodeAndEncodeAgree w .nop).trans eq_comm
  refine ⟨fun s => rfl, hnop, fun s rest hb hr h => ⟨false, ?_⟩⟩
  have accepted := step_wrReg_cmd hb hr h
  have completed := step_turn_legal (s := { s.accept 0 with inputs := .turn :: rest }) rfl rfl ((hnop 0).2 rfl) rfl
  exact (run_next 1 accepted).trans (run_next 0 completed)

/-! ## Completion with an error (R93) -/

/-- A command that sets ERR has raised an error, before its first write. -/
theorem exec_error {i : Instr} {s t : State} (h : exec i s = .next t) (hs : s.err = false) (ht : t.err = true) :
    ∃ e, t = s.raise e := by
  rcases exec_cases i s with ⟨e, hx, _⟩ | ⟨_, hx⟩ | ⟨_, v, hx⟩ | ⟨_, v, n, hx⟩ | ⟨_, _, hx⟩ | ⟨_, _, hx⟩ <;>
    cases h.symm.trans hx
  · exact ⟨e, rfl⟩
  all_goals simp [hs] at ht

/-- An undisturbed completion that sets ERR has raised an error, whatever the word. -/
theorem complete_error {s t : State} (hd : s.disturbed = false) (h : complete s = .next t) (hs : s.err = false)
    (ht : t.err = true) : ∃ e, t = s.raise e := by
  obtain ⟨u, hu, hc⟩ := complete_cases s
  rw [h, State.settle_undisturbed hd] at hu
  cases hu
  rcases hc with ⟨i, _, hx⟩ | ⟨_, rfl⟩ | ⟨_, rfl⟩
  · exact exec_error hx hs ht
  · exact ⟨.illegal, rfl⟩
  · exact ⟨.reserved, rfl⟩

/-- Settles O10: the completion is `State.raise`, whose code is one of R180. -/
theorem commandErrorChangesNothingElse : Obligations.CommandErrorChangesNothingElse := by
  intro s t rest hb hd hs h hstep ht
  rw [step_turn hb h] at hstep
  obtain ⟨e, rfl⟩ := complete_error (s := { s with inputs := rest }) hd hstep hs ht
  obtain ⟨hle, hne⟩ := e.code_bounds
  exact ⟨rfl, Nat.pos_of_ne_zero fun h0 => hne (BitVec.eq_of_toNat_eq h0), hle⟩

/-! ## Progress (R92, 70_reset_and_hazards.md R221) -/

theorem State.hostWrite_inputs (s : State) (r : Reg) (v : Word) : (s.hostWrite r v).inputs = s.inputs := by
  rcases s.hostWrite_cases r v with h | ⟨_, _, h⟩ | ⟨_, _, h⟩ | ⟨_, _, h⟩ | ⟨_, _, _, h⟩ | ⟨_, _, h | h | h | h⟩ <;>
    rw [h] <;> rfl

/-- Every step takes exactly what happens next off the list. -/
theorem step_inputs {s t : State} (h : step s = .next t) : t.inputs = s.inputs.tail := by
  rcases step_next h with ⟨_, hs⟩ | ⟨idx, v, _, _, rfl⟩ | ⟨_, _, _, _, _, rfl⟩ | ⟨_, _, rfl⟩ | rfl
  · obtain ⟨u, hu, _, _, _, _, _, hin, _⟩ := blockStep_next s.pop
    cases hs.symm.trans hu
    exact hin
  · exact s.pop.hostWrite_inputs _ v
  · rfl
  · rfl
  · rfl

/-- A step whose input is well formed answers a next state, and what is left is well formed for it. -/
theorem step_of_wellFormed {s : State} (hwf : ∀ i ∈ s.inputs, i.wellFormed s.memSize = true) :
    ∃ t, step s = .next t ∧ ∀ i ∈ t.inputs, i.wellFormed t.memSize = true := by
  rcases step_outcome s with ⟨⟨t, ht⟩, _⟩ | ⟨_, op, rest, hin, hop⟩
  · refine ⟨t, ht, fun i hi => ?_⟩
    rw [step_memSize ht]
    exact hwf i (List.mem_of_mem_tail (step_inputs ht ▸ hi))
  · have hop' : op.wellFormed s.memSize = true := hwf (.host op) (by simp [hin])
    simp [hop] at hop'

/-- An input that neither aborts the pending command nor can clear DONE: no assertion of `rst`, no register write. -/
def Input.leavesCommand (i : Input) : Prop := i ≠ .rstAssert ∧ ∀ idx v, i ≠ .host (.wr idx v)

/-- A command has been accepted, and it is pending or its DONE still stands (R26). -/
def State.issued (s : State) : Prop := s.busy = true ∨ s.done = true

theorem step_keeps_issued {s t : State} (h : step s = .next t) (hl : ∀ i ∈ s.inputs, i.leavesCommand)
    (hs : s.issued) : t.issued := by
  rcases step_next h with ⟨_, hb⟩ | ⟨idx, v, rest, hin, _⟩ | ⟨_, _, _, _, _, rfl⟩ | ⟨rest, hin, _⟩ | rfl
  · obtain ⟨u, hu, _, _, _, _, _, _, hbusy, hidle⟩ := blockStep_next s.pop
    cases hb.symm.trans hu
    cases hp : s.busy with
    | true => exact .inr (hbusy hp).1
    | false => rw [hidle hp]; exact hs
  · exact absurd rfl ((hl (.host (.wr idx v)) (by simp [hin])).2 idx v)
  · exact hs
  · exact absurd rfl (hl .rstAssert (by simp [hin])).1
  · exact hs

/-- With nothing left to happen a step leaves nothing pending (log 4). -/
theorem step_no_input_not_busy {s t : State} (hin : s.inputs = []) (h : step s = .next t) : t.busy = false := by
  simp only [step, hin] at h
  exact blockStep_not_busy h

/-- The run through `n` well-formed inputs and once more: it ends idle with nothing left, and where no input touches an
issued command, with its DONE. -/
theorem run_inputs {n : Nat} {s : State} (hn : s.inputs.length = n)
    (hwf : ∀ i ∈ s.inputs, i.wellFormed s.memSize = true) :
    ∃ t, Host.Core.run core (n + 1) s = .next t ∧ t.busy = false ∧ t.inputs = [] ∧
      (s.issued → (∀ i ∈ s.inputs, i.leavesCommand) → t.done = true) := by
  induction n generalizing s with
  | zero =>
    obtain ⟨t, ht, _⟩ := step_of_wellFormed hwf
    have hnil := List.eq_nil_of_length_eq_zero hn
    have hb := step_no_input_not_busy hnil ht
    refine ⟨t, run_next 0 ht, hb, by simp [step_inputs ht, hnil], fun hs hl => ?_⟩
    exact (step_keeps_issued ht hl hs).resolve_left (by simp [hb])
  | succ n ih =>
    obtain ⟨u, hu, huwf⟩ := step_of_wellFormed hwf
    have htail := step_inputs hu
    obtain ⟨t, ht, hb, hin, hdone⟩ := ih (s := u) (by simp [htail, hn]) huwf
    refine ⟨t, (run_next (n + 1) hu).trans ht, hb, hin, fun hs hl => ?_⟩
    exact hdone (step_keeps_issued hu hl hs) fun i hi => hl i (List.mem_of_mem_tail (htail ▸ hi))

/-- Settles O56: `run_inputs` for a command that is pending at the start. -/
theorem pendingCommandCompletes : Obligations.PendingCommandCompletes := by
  intro s hwf
  obtain ⟨t, ht, hb, hin, hdone⟩ := run_inputs rfl hwf
  exact ⟨t, ht, hb, hin, fun hs hl => hdone (.inl hs) hl⟩

end Sys2Proof.Machine
end

section
/-! PROOFS. The encoder (41_encoder.md): the pair path against the single path, the shape of the text of a byte sequence,
and the four commands on the block. -/

namespace Sys2Proof.Machine

/-! ## The pair path and the single path (R100 to R102, R110) -/

/-- Four lookups in FORWARD, one for each field. -/
def Fields4.chars (f : Fields4) : Chars4 := ⟨forward f.f0, forward f.f1, forward f.f2, forward f.f3⟩

theorem encGroup_eq_chars (g : Bytes3) : encGroup g = (split6 (pack24 g)).chars := by
  rw [encGroup_eq, split6_pack24]
  rfl

/-- The first two fields of a one-byte tail are those of the group filled up with zeros. -/
theorem encTail1_eq_chars (b0 : Byte) :
    encTail1 b0 = ⟨(split6 (pack24 ⟨b0, 0, 0⟩)).chars.c0, (split6 (pack24 ⟨b0, 0, 0⟩)).chars.c1, padChar, padChar⟩ := by
  rw [encTail1_eq, split6_pack24]
  simp only [Fields4.chars, BitVec.ofNat_eq_ofNat, BitVec.extractLsb'_zero]

/-- The first three fields of a two-byte tail are those of the group filled up with a zero. -/
theorem encTail2_eq_chars (b0 b1 : Byte) :
    encTail2 b0 b1 = ⟨(split6 (pack24 ⟨b0, b1, 0⟩)).chars.c0, (split6 (pack24 ⟨b0, b1, 0⟩)).chars.c1,
      (split6 (pack24 ⟨b0, b1, 0⟩)).chars.c2, padChar⟩ := by
  rw [encTail2_eq, split6_pack24]
  simp only [Fields4.chars, BitVec.ofNat_eq_ofNat, BitVec.extractLsb'_zero]

/-! ## The shape of the text (R103, R109) -/

@[simp] theorem isAlpha_forward (v : BitVec 6) : isAlpha (forward v) = true := by simp [isAlpha]

theorem isAlpha_padChar : isAlpha padChar = false := by decide

theorem isAlpha_of_mem_encGroup {g : Bytes3} {c : Byte} (h : c ∈ (encGroup g).toList) : isAlpha c = true := by
  rw [encGroup_eq_chars] at h
  simp only [Fields4.chars, Chars4.toList, List.mem_cons, List.not_mem_nil, or_false] at h
  rcases h with rfl | rfl | rfl | rfl <;> exact isAlpha_forward _

/-- Settles O17: a group more in front moves every group and the tail up by three bytes. -/
theorem encodingIsGroupsThenTail : Obligations.EncodingIsGroupsThenTail := by
  intro bs
  induction bs using encodeBytes.induct with
  | case1 => rfl
  | case2 b0 => simp [encodeBytes]
  | case3 b0 b1 => simp [encodeBytes]
  | case4 b0 b1 b2 rest ih =>
    have hdiv : (b0 :: b1 :: b2 :: rest).length / 3 = rest.length / 3 + 1 :=
      Nat.add_div_right rest.length (Nat.succ_pos 2)
    have hmod : (b0 :: b1 :: b2 :: rest).length % 3 = rest.length % 3 := Nat.add_mod_right rest.length 3
    rw [encodeBytes, ih, hdiv, hmod, List.range_succ_eq_map]
    simp [List.flatMap_map, Nat.mul_add]

/-- Settles O19: a group more in front is four more characters of the alphabet, and a tail ends in its padding. -/
theorem paddingLaw : Obligations.PaddingLaw := by
  refine ⟨isAlpha_padChar, fun bs => ?_⟩
  induction bs using encodeBytes.induct with
  | case1 => exact ⟨[], rfl, by simp⟩
  | case2 b0 => exact ⟨[_, _], by rw [encodeBytes, encTail1_eq]; rfl, by simp⟩
  | case3 b0 b1 => exact ⟨[_, _, _], by rw [encodeBytes, encTail2_eq]; rfl, by simp⟩
  | case4 b0 b1 b2 rest ih =>
    obtain ⟨chars, htext, halpha⟩ := ih
    have hmod : (b0 :: b1 :: b2 :: rest).length % 3 = rest.length % 3 := Nat.add_mod_right rest.length 3
    refine ⟨(encGroup ⟨b0, b1, b2⟩).toList ++ chars, ?_, fun c hc => ?_⟩
    · rw [encodeBytes, htext, hmod, List.append_assoc]
    · exact (List.mem_append.1 hc).elim isAlpha_of_mem_encGroup (halpha c)

/-! ## The group commands (R105 to R107) -/

/-- Bits of a slice are bits of the word it was cut from. -/
theorem extractLsb'_extractLsb'_of_add_le {w n i len : Nat} (x : BitVec w) (j : Nat) (h : i + len ≤ n) :
    (x.extractLsb' j n).extractLsb' i len = x.extractLsb' (j + i) len := by
  refine BitVec.eq_of_getLsbD_eq fun k hk => ?_
  simp [hk, show i + k < n by omega, Nat.add_assoc]

/-- The group in DIN is the 24 bits below its ignored byte. -/
theorem pack24_inG3B (w : Word) : pack24 (inG3B w) = w.setWidth 24 := by
  rw [pack24_eq_append, BitVec.setWidth_eq_extractLsb' (by omega)]
  simp only [inG3B, BitVec.extractLsb'_append_extractLsb'_eq_extractLsb']

/-- ENCGRP's four characters and SPLIT6's four fields come from the same 24 bits of DIN. -/
theorem encGroup_inG3B (w : Word) : encGroup (inG3B w) = (split6 (w.setWidth 24)).chars := by
  rw [encGroup_eq_chars, pack24_inG3B]

theorem split6_setWidth (w : Word) :
    split6 (w.setWidth 24) =
      ⟨w.extractLsb' 18 6, w.extractLsb' 12 6, w.extractLsb' 6 6, w.extractLsb' 0 6⟩ := by
  rw [BitVec.setWidth_eq_extractLsb' (by decide)]
  simp only [split6, extractLsb'_extractLsb'_of_add_le, Nat.reduceAdd, Nat.reduceLeDiff]

theorem encTail1_inT1 (w : Word) :
    encTail1 (inT1 w) =
      ⟨forward (w.extractLsb' 2 6), forward (w.extractLsb' 0 2 ++ 0#4), padChar, padChar⟩ := by
  simp only [encTail1_eq, inT1, extractLsb'_extractLsb'_of_add_le, Nat.reduceAdd, Nat.reduceLeDiff]

theorem encTail2_inT2 (w : Word) :
    encTail2 (inT2 w).1 (inT2 w).2 =
      ⟨forward (w.extractLsb' 10 6), forward (w.extractLsb' 4 6), forward (w.extractLsb' 0 4 ++ 0#2), padChar⟩ := by
  have hslice : w.extractLsb' 8 2 ++ w.extractLsb' 4 4 = w.extractLsb' 4 6 :=
    BitVec.extractLsb'_append_extractLsb'_eq_extractLsb' rfl
  simp only [encTail2_eq, inT2, extractLsb'_extractLsb'_of_add_le, Nat.reduceAdd, Nat.reduceLeDiff, hslice]

theorem append_padChar_padChar {n : Nat} (x : BitVec n) : x ++ padChar ++ padChar = x ++ 0x3D3D#16 :=
  BitVec.append_assoc

/-- Settles O13: the fields of DIN's group are fields of DIN. -/
theorem encgrpEncodesAFullGroup : Obligations.EncgrpEncodesAFullGroup := by
  refine ⟨decodeCmd_encode .encgrp, fun s => ?_⟩
  simp only [exec, execEncgrp, encGroup_inG3B, split6_setWidth]
  rfl

/-- Settles O14: the bits of the byte in DIN are bits of DIN, and two padding characters are `==`. -/
theorem enctOneEncodesAOneByteTail : Obligations.EnctOneEncodesAOneByteTail := by
  refine ⟨decodeCmd_encode .enct1, fun s => ?_⟩
  simp only [exec, execEnct1, encTail1_inT1, outG4C, append_padChar_padChar]
  rfl

/-- Settles O15: the bits of the two bytes in DIN are bits of DIN, and the second field is one slice of it. -/
theorem enctTwoEncodesATwoByteTail : Obligations.EnctTwoEncodesATwoByteTail := by
  refine ⟨decodeCmd_encode .enct2, fun s => ?_⟩
  simp only [exec, execEnct2, encTail2_inT2]
  rfl

/-! ## The single path on the block (R110) -/

/-- Format G4C reads back what it wrote. -/
theorem inG4C_outG4C (g : Chars4) : inG4C (outG4C g) = g := by
  have low {n : Nat} (x : BitVec n) (b : Byte) : (x ++ b).extractLsb' 0 8 = b := BitVec.extractLsb'_append_eq_right
  have high {n : Nat} (i : Nat) (x : BitVec n) (b : Byte) : (x ++ b).extractLsb' (i + 8) 8 = x.extractLsb' i 8 :=
    BitVec.extractLsb'_append_eq_of_le (Nat.le_add_left 8 i)
  have h0 : (outG4C g).extractLsb' 24 8 = g.c0 :=
    (high 16 _ _).trans ((high 8 _ _).trans BitVec.extractLsb'_append_eq_left)
  have h1 : (outG4C g).extractLsb' 16 8 = g.c1 := (high 8 _ _).trans ((high 0 _ _).trans (low _ _))
  have h2 : (outG4C g).extractLsb' 8 8 = g.c2 := (high 0 _ _).trans (low _ _)
  have h3 : (outG4C g).extractLsb' 0 8 = g.c3 := low _ _
  rw [inG4C, h0, h1, h2, h3]

/-- Format F6X4 is format G4C of the fields as bytes. -/
theorem inG4C_outF6X4 (f : Fields4) :
    inG4C (outF6X4 f) = ⟨f.f0.setWidth 8, f.f1.setWidth 8, f.f2.setWidth 8, f.f3.setWidth 8⟩ :=
  inG4C_outG4C ⟨f.f0.setWidth 8, f.f1.setWidth 8, f.f2.setWidth 8, f.f3.setWidth 8⟩

/-- Byte `k` of SPLIT6's result is the field whose FORWARD entry is byte `k` of ENCGRP's. -/
theorem exists_field_of_byte (f : Fields4) {k : Nat} (hk : k < 4) :
    ∃ v : BitVec 6, (outF6X4 f).extractLsb' (8 * k) 8 = v.setWidth 8 ∧
      (outG4C f.chars).extractLsb' (8 * k) 8 = forward v := by
  have hfields := inG4C_outF6X4 f
  have hchars := inG4C_outG4C f.chars
  match k, hk with
  | 0, _ => exact ⟨f.f3, congrArg Chars4.c3 hfields, congrArg Chars4.c3 hchars⟩
  | 1, _ => exact ⟨f.f2, congrArg Chars4.c2 hfields, congrArg Chars4.c2 hchars⟩
  | 2, _ => exact ⟨f.f1, congrArg Chars4.c1 hfields, congrArg Chars4.c1 hchars⟩
  | 3, _ => exact ⟨f.f0, congrArg Chars4.c0 hfields, congrArg Chars4.c0 hchars⟩

/-- A field, as the byte SPLIT6 gives it, is an index of FORWARD (43_lookup_rom.md R149). -/
theorem exec_romrdF_field {s : State} {v : BitVec 6} (h : s.din = (v.setWidth 8).setWidth 32) :
    exec .romrdF s = .next (s.finishDout ((forward v).setWidth 32)) := by
  have hv : s.din.toNat = v.toNat := by
    rw [h, BitVec.toNat_setWidth_of_le (by decide), BitVec.toNat_setWidth_of_le (by decide)]
  rcases s.romRead_cases 6 forward with ⟨hd, _⟩ | ⟨_, hr⟩
  · exact absurd v.isLt (by omega)
  · simp only [exec, execRomrdF, hr, hv, BitVec.ofNat_toNat, BitVec.setWidth_eq, outENT]

/-- Settles O20: the groups, the tails, and byte by byte SPLIT6's fields against ENCGRP's characters. -/
theorem pairPathAgreesWithSinglePath : Obligations.PairPathAgreesWithSinglePath := by
  refine ⟨encGroup_eq_chars, encTail1_eq_chars, encTail2_eq_chars, fun s t u ht hu k hk => ?_⟩
  cases ht
  cases hu
  obtain ⟨v, hfield, hchar⟩ := exists_field_of_byte (split6 (s.din.setWidth 24)) hk
  rw [← encGroup_inG3B] at hchar
  simp only [State.finishDout_dout, State.finishDoutRlen_dout, hfield, hchar]
  exact ⟨_, exec_romrdF_field rfl, rfl, rfl⟩

/-! ## ENCODE (R104, R108) -/

theorem State.encodeCheck_range (s : State)
    (h : ¬ (s.encodeIn.inRange s.memSize = true ∧ s.encodeOut.inRange s.memSize = true)) :
    s.encodeCheck = some .range := by
  simp only [State.encodeCheck, ← Bool.and_eq_true] at h ⊢
  simp [h]

theorem State.encodeCheck_overlap {s : State} (hin : s.encodeIn.inRange s.memSize = true)
    (hout : s.encodeOut.inRange s.memSize = true) (h : s.encodeIn.overlaps s.encodeOut = true) :
    s.encodeCheck = some .overlap := by
  simp [State.encodeCheck, hin, hout, h]

theorem exec_encode_error {s : State} {e : CmdError} (h : s.encodeCheck = some e) :
    exec .encode s = .next (s.raise e) := by
  simp only [exec, execEncode, h]

theorem exec_encode_text {s : State} (h : s.encodeCheck = none) :
    exec .encode s = .next (s.finishBytes s.encodeOut.start (encodeBytes (s.readRegion s.encodeIn))) := by
  simp only [exec, execEncode, h]

/-- The length of a text that has a place beside its bytes fits a register: a text of 2^32 characters would fill the
largest memory, and so overlap its input. -/
theorem State.encodeOut_size_lt {s : State} (h : s.encodeCheck = none) : s.encodeOut.size < 2 ^ 32 := by
  obtain ⟨hin, hout, hov⟩ := s.encodeCheck_none.1 h
  rw [← Bool.not_eq_true, Region.overlaps_iff] at hov
  rw [Region.inRange_iff] at hin hout
  have hmem := s.memSize_le
  have hsize : s.encodeOut.size = 4 * ((s.encodeIn.size + 3 - 1) / 3) := rfl
  omega

theorem State.encode_rlen_toNat {s : State} (h : s.encodeCheck = none) :
    (BitVec.ofNat 32 (encodeBytes (s.readRegion s.encodeIn)).length).toNat = s.encodeOut.size := by
  rw [s.encodeBytes_region_length, BitVec.toNat_ofNat, Nat.mod_eq_of_lt (State.encodeOut_size_lt h)]

/-- Where the checks of ENCODE pass, its text is written beside its input. -/
theorem State.encodeIn_unwritten {s : State} (h : s.encodeCheck = none) :
    (s.writeBytes s.encodeOut.start (encodeBytes (s.readRegion s.encodeIn))).readRegion s.encodeIn =
      s.readRegion s.encodeIn := by
  obtain ⟨_, _, hov⟩ := s.encodeCheck_none.1 h
  refine State.readRegion_writeBytes s fun x h1 h2 => Bool.eq_false_iff.2 fun hx => ?_
  rw [s.encodeBytes_region_length] at h2
  have hshared := (Region.overlaps_iff_shared _ _).2 ⟨x, hx, (Region.contains_iff s.encodeOut x).2 ⟨h1, h2⟩⟩
  exact Bool.eq_false_iff.1 hov hshared

/-- Settles O16: the checks of R104 in its own words decide among the three outcomes; the text read back is the text
written, which lies beside the input region. -/
theorem encodeCommandEncodesItsRegion : Obligations.EncodeCommandEncodesItsRegion := by
  refine ⟨decodeCmd_encode .encode, ?_⟩
  rintro s _ _ rfl rfl
  have hin : s.encodeIn.inRange s.memSize = true ↔ _ := Region.inRange_iff _ _
  have hout : s.encodeOut.inRange s.memSize = true ↔ _ := Region.inRange_iff _ _
  have hov : s.encodeIn.overlaps s.encodeOut = true ↔ _ := Region.overlaps_iff _ _
  refine ⟨fun h => ?_, fun h1 h2 h3 => ?_, fun h1 h2 h3 => ?_⟩
  · exact exec_encode_error (s.encodeCheck_range fun ⟨h1, h2⟩ => h ⟨hin.1 h1, hout.1 h2⟩)
  · exact exec_encode_error (State.encodeCheck_overlap (hin.2 h1) (hout.2 h2) (hov.2 h3))
  · have hc := s.encodeCheck_none.2 ⟨hin.2 h1, hout.2 h2, Bool.eq_false_iff.2 fun h => h3 (hov.1 h)⟩
    have hlen := s.encodeBytes_region_length
    refine ⟨s.mem.writeBytes s.encodeOut.start (encodeBytes (s.readRegion s.encodeIn)), ?_,
      State.encodeOut_size_lt hc, ?_, fun a ha => ?_, State.encodeIn_unwritten hc⟩
    · rw [exec_encode_text hc, State.finishBytes, hlen]
      rfl
    · have hback := Memory.readBytes_writeBytes s.mem s.encodeOut.start (encodeBytes (s.readRegion s.encodeIn))
      rwa [hlen] at hback
    · exact Memory.read_writeBytes_outside _ _ _ (by rwa [hlen])

/-- Settles O18: an ENCODE that ends without an error has passed its checks. -/
theorem encodeLengthLaw : Obligations.EncodeLengthLaw := by
  refine ⟨encodeBytes_length, fun s t _ h ht => ?_⟩
  cases hc : s.encodeCheck with
  | some e =>
    cases h.symm.trans (exec_encode_error hc)
    cases ht
  | none =>
    cases h.symm.trans (exec_encode_text hc)
    exact State.encode_rlen_toNat hc

end Sys2Proof.Machine
end

section
/-! PROOFS. The decoder (42_decoder.md): what its functions give on alphabet characters and at padding, the text as groups,
the round trip with the encoder, the in-place pass, and the three commands on the block. -/

namespace Sys2Proof.Machine

/-! ## Packing and unpacking undo each other (44_bit_pack_unpack.md R160 to R164) -/

theorem unpack24_pack24 (g : Bytes3) : unpack24 (pack24 g) = g := by
  have h0 : (g.b0 ++ g.b1 ++ g.b2).extractLsb' 16 8 = g.b0 :=
    (BitVec.extractLsb'_append_eq_of_le (by decide)).trans BitVec.extractLsb'_append_eq_left
  have h1 : (g.b0 ++ g.b1 ++ g.b2).extractLsb' 8 8 = g.b1 :=
    (BitVec.extractLsb'_append_eq_of_le (Nat.le_refl 8)).trans BitVec.extractLsb'_append_eq_right
  have h2 : (g.b0 ++ g.b1 ++ g.b2).extractLsb' 0 8 = g.b2 := BitVec.extractLsb'_append_eq_right
  rw [pack24_eq_append, unpack24, h0, h1, h2]

theorem join6_split6 (v : BitVec 24) : join6 (split6 v) = v := by
  rw [join6_eq_append]
  simp only [split6, BitVec.extractLsb'_append_extractLsb'_eq_extractLsb']
  exact BitVec.extractLsb'_eq_self

/-- Two halves of two fields each are the four fields. -/
theorem join12_append (f : Fields4) : join12 (f.f0 ++ f.f1) (f.f2 ++ f.f3) = join6 f := by
  have hassoc (hi : BitVec 12) (x y : BitVec 6) : hi ++ (x ++ y) = hi ++ x ++ y := BitVec.append_assoc.symm
  rw [join12_eq_append, join6_eq_append, hassoc]

/-- The first two bytes of a 24-bit value below a byte of zeros. -/
theorem zero_append_slices (v : BitVec 24) :
    0#8 ++ v.extractLsb' 16 8 ++ v.extractLsb' 8 8 = 0#8 ++ v.extractLsb' 8 16 := by
  have hslice : v.extractLsb' 16 8 ++ v.extractLsb' 8 8 = v.extractLsb' 8 16 :=
    BitVec.extractLsb'_append_extractLsb'_eq_extractLsb' rfl
  rw [← hslice]
  exact BitVec.append_assoc

/-- Format G3B of the three bytes of a 24-bit value. -/
theorem outG3B_unpack24 (v : BitVec 24) : outG3B (unpack24 v) = 0#8 ++ v := by
  have hassoc (x : BitVec 16) (y : Byte) : 0#8 ++ x ++ y = 0#8 ++ (x ++ y) := BitVec.append_assoc
  have hslice : v.extractLsb' 8 16 ++ v.extractLsb' 0 8 = v :=
    (BitVec.extractLsb'_append_extractLsb'_eq_extractLsb' rfl).trans BitVec.extractLsb'_eq_self
  rw [outG3B, unpack24, zero_append_slices, hassoc, hslice]

/-! ## The decoder's functions byte by byte (R120, R122) -/

theorem decGroup_eq (g : Chars4) :
    decGroup g = ⟨(pairReverse (g.c0 ++ g.c1)).extractLsb' 4 8,
      (pairReverse (g.c0 ++ g.c1)).extractLsb' 0 4 ++ (pairReverse (g.c2 ++ g.c3)).extractLsb' 8 4,
      (pairReverse (g.c2 ++ g.c3)).extractLsb' 0 8⟩ := by
  rw [decGroup, pidx_eq_append, pidx_eq_append, unpack24_join12]

theorem decFinalBytes_eq (g : Chars4) :
    decFinalBytes g = ⟨(reverse g.c0 ++ reverse g.c1).extractLsb' 4 8, (reverse g.c1 ++ reverse g.c2).extractLsb' 2 8,
      (reverse g.c2 ++ reverse g.c3).extractLsb' 0 8⟩ :=
  unpack24_join6 _

theorem validCount_pad_second (c0 c1 c3 : Byte) : validCount ⟨c0, c1, padChar, c3⟩ = 1 := if_pos rfl

theorem validCount_pad_third (c0 c1 : Byte) {c2 : Byte} (h : c2 ≠ padChar) : validCount ⟨c0, c1, c2, padChar⟩ = 2 :=
  (if_neg h).trans (if_pos rfl)

theorem validCount_no_pad {g : Chars4} (h2 : g.c2 ≠ padChar) (h3 : g.c3 ≠ padChar) : validCount g = 3 :=
  (if_neg h2).trans (if_neg h3)

/-- The padding of the final group (R129). -/
def padCount (g : Chars4) : Nat := if g.c2 = padChar then 2 else if g.c3 = padChar then 1 else 0

theorem validCount_add_padCount (g : Chars4) : validCount g + padCount g = 3 := by
  unfold validCount padCount
  split
  · rfl
  · split <;> rfl

theorem decFinal_pad_second (c0 c1 c3 : Byte) :
    decFinal ⟨c0, c1, padChar, c3⟩ = [(reverse c0 ++ reverse c1).extractLsb' 4 8] := by
  rw [decFinal, validCount_pad_second, decFinalBytes_eq]
  rfl

theorem decFinal_pad_third (c0 c1 : Byte) {c2 : Byte} (h : c2 ≠ padChar) :
    decFinal ⟨c0, c1, c2, padChar⟩ =
      [(reverse c0 ++ reverse c1).extractLsb' 4 8, (reverse c1 ++ reverse c2).extractLsb' 2 8] := by
  rw [decFinal, validCount_pad_third c0 c1 h, decFinalBytes_eq]
  rfl

/-! ## Alphabet characters decode to their values (R131) -/

@[simp] theorem reverse_forward (v : BitVec 6) : reverse (forward v) = v := reverse_of_alphaValue (alphaValue_forward v)

@[simp] theorem pairReverse_forward (v0 v1 : BitVec 6) : pairReverse (forward v0 ++ forward v1) = v0 ++ v1 := by
  rw [pairReverse_append, alphaValue_forward, alphaValue_forward]

theorem forward_ne_padChar (v : BitVec 6) : forward v ≠ padChar := fun h => by
  have halpha := isAlpha_forward v
  rw [h, isAlpha_padChar] at halpha
  cases halpha

theorem decGroup_chars (f : Fields4) : decGroup f.chars = unpack24 (join6 f) := by
  simp only [decGroup, pidx_eq_append, Fields4.chars, pairReverse_forward, join12_append]

theorem decFinalBytes_chars (f : Fields4) : decFinalBytes f.chars = unpack24 (join6 f) := by
  simp only [decFinalBytes, Fields4.chars, reverse_forward]

theorem decFinal_chars (f : Fields4) : decFinal f.chars = (unpack24 (join6 f)).toList := by
  rw [decFinal, validCount_no_pad (forward_ne_padChar f.f2) (forward_ne_padChar f.f3), decFinalBytes_chars]
  rfl

/-- Settles O29: each byte is a slice of two REVERSE entries, or of the one or two PAIR_REVERSE entries it crosses. -/
theorem decodedBytesDependOnTheirCharacters : Obligations.DecodedBytesDependOnTheirCharacters := by
  refine ⟨fun c0 c1 c2 c3 d2 d3 => ?_, fun c0 c1 c2 c3 d0 d3 => ?_, fun c0 c1 c2 c3 d0 d1 => ?_, fun c0 c1 c3 d3 => ?_,
    fun c0 c1 c2 h => decFinal_pad_third c0 c1 h, fun c0 c1 c2 c3 d2 d3 => ?_, fun c0 c1 c2 c3 d0 d1 => ?_, ?_⟩
  · simp only [decFinalBytes_eq]
  · simp only [decFinalBytes_eq]
  · simp only [decFinalBytes_eq]
  · simp only [decFinal_pad_second, and_self]
  · simp only [decGroup_eq, true_and]
    exact BitVec.extractLsb'_append_eq_left.trans BitVec.extractLsb'_append_eq_left.symm
  · simp only [decGroup_eq, and_true]
    exact BitVec.extractLsb'_append_eq_right.trans BitVec.extractLsb'_append_eq_right.symm
  · rintro ⟨c0, c1, c2, c3⟩ v0 v1 v2 v3
    refine ⟨?_, ?_, ?_, ?_⟩
    · rintro rfl rfl
      simp only [decGroup_eq, decFinalBytes_eq, pairReverse_forward, reverse_forward, and_self]
    · rintro rfl rfl rfl rfl
      exact congrArg Bytes3.b1 ((decGroup_chars ⟨v0, v1, v2, v3⟩).trans (unpack24_join6 _))
    · rintro rfl rfl
      simp only [decFinalBytes_eq, reverse_forward]
    · rintro rfl rfl
      simp only [decGroup_eq, decFinalBytes_eq, pairReverse_forward, reverse_forward, and_self]

/-! ## The round trip of the functions (R130) -/

theorem decGroup_encGroup (g : Bytes3) : decGroup (encGroup g) = g := by
  rw [encGroup_eq_chars, decGroup_chars, join6_split6, unpack24_pack24]

theorem decFinal_encGroup (g : Bytes3) : decFinal (encGroup g) = g.toList := by
  rw [encGroup_eq_chars, decFinal_chars, join6_split6, unpack24_pack24]

/-- The bytes that the fields of a group give, as the slices the decoder takes. -/
theorem split6_pack24_slices (g : Bytes3) :
    ((split6 (pack24 g)).f0 ++ (split6 (pack24 g)).f1).extractLsb' 4 8 = g.b0 ∧
      ((split6 (pack24 g)).f1 ++ (split6 (pack24 g)).f2).extractLsb' 2 8 = g.b1 := by
  have h := unpack24_join6 (split6 (pack24 g))
  rw [join6_split6, unpack24_pack24] at h
  exact ⟨(congrArg Bytes3.b0 h).symm, (congrArg Bytes3.b1 h).symm⟩

theorem decFinal_encTail1 (b0 : Byte) : decFinal (encTail1 b0) = [b0] := by
  rw [encTail1_eq_chars, decFinal_pad_second]
  simp only [Fields4.chars, reverse_forward, (split6_pack24_slices ⟨b0, 0, 0⟩).1]

theorem decFinal_encTail2 (b0 b1 : Byte) : decFinal (encTail2 b0 b1) = [b0, b1] := by
  obtain ⟨h0, h1⟩ := split6_pack24_slices ⟨b0, b1, 0⟩
  rw [encTail2_eq_chars, decFinal_pad_third _ _ (by exact forward_ne_padChar _)]
  simp only [Fields4.chars, reverse_forward, h0, h1]

/-- A group of four characters alone is the last one. -/
theorem decodeChars_toList (g : Chars4) : decodeChars g.toList = decFinal g := rfl

theorem decodeChars_toList_append (g : Chars4) {rest : List Byte} (h : rest ≠ []) :
    decodeChars (g.toList ++ rest) = (decGroup g).toList ++ decodeChars rest := decodeChars_cons h

theorem encodeBytes_ne_nil {bs : List Byte} (h : bs ≠ []) : encodeBytes bs ≠ [] := by
  rw [← List.length_pos_iff] at h ⊢
  rw [encodeBytes_length, encodedLength, ceilDiv]
  omega

/-- A group of the text in front of others is a pair of lookups, the last group is four; both give its bytes back. -/
theorem decodeChars_encodeBytes (bs : List Byte) : decodeChars (encodeBytes bs) = bs := by
  induction bs using encodeBytes.induct with
  | case1 => rfl
  | case2 b0 => rw [encodeBytes, decodeChars_toList, decFinal_encTail1]
  | case3 b0 b1 => rw [encodeBytes, decodeChars_toList, decFinal_encTail2]
  | case4 b0 b1 b2 rest ih =>
    rw [encodeBytes]
    by_cases hrest : rest = []
    · subst hrest
      exact decFinal_encGroup ⟨b0, b1, b2⟩
    · rw [decodeChars_toList_append _ (encodeBytes_ne_nil hrest), decGroup_encGroup, ih]
      rfl

/-! ## DECODE (R121, R125) -/

theorem State.decodeIn_inRange_iff (s : State) :
    s.decodeIn.inRange s.memSize = true ↔ s.len.toNat = 0 ∨ s.src.toNat + s.len.toNat ≤ s.memSize :=
  Region.inRange_iff _ _

theorem State.decodeCheck_range {s : State} (h : ¬ s.decodeIn.inRange s.memSize = true) : s.decodeCheck = some .range := by
  simp [State.decodeCheck, h]

theorem State.decodeCheck_badlen {s : State} (hin : s.decodeIn.inRange s.memSize = true) (h4 : 4 ≤ s.len.toNat)
    (h : s.len.toNat % 4 ≠ 0) : s.decodeCheck = some .badlen := by
  simp [State.decodeCheck, hin, Nat.not_lt.2 h4, h]

theorem exec_decode_error {s : State} {e : CmdError} (h : s.decodeCheck = some e) :
    exec .decode s = .next (s.raise e) := by
  simp only [exec, execDecode, h]

theorem exec_decode_text {s : State} (h : s.decodeCheck = none) :
    exec .decode s = .next (s.finishBytes s.decodeIn.start (decodeChars (s.readRegion s.decodeIn))) := by
  simp only [exec, execDecode, h]

theorem State.decode_rlen_toNat {s : State} (h : s.decodeCheck = none) :
    (BitVec.ofNat 32 (decodeChars (s.readRegion s.decodeIn)).length).toNat =
      (decodeChars (s.readRegion s.decodeIn)).length := by
  obtain ⟨hle, _⟩ := s.decodeChars_region_length h
  have hlen := s.len.isLt
  rw [BitVec.toNat_ofNat, Nat.mod_eq_of_lt (by omega)]

/-- Settles O23: the checks pass, and a text shorter than a group decodes to nothing. -/
theorem shortDecodeIsEmptyAndNoError : Obligations.ShortDecodeIsEmptyAndNoError := by
  intro s h4 hin
  have hc := s.decodeCheck_none.2 ⟨s.decodeIn_inRange_iff.2 hin, .inl h4⟩
  rw [exec_decode_text hc, (s.decodeChars_region_length hc).2.1 h4]
  rfl

/-- Settles O24: the checks of R125 in its own words decide among the four outcomes; the bytes read back are the bytes
written. -/
theorem decodeCommandDecodesInPlace : Obligations.DecodeCommandDecodesInPlace := by
  refine ⟨decodeCmd_encode .decode, ?_⟩
  rintro s _ _ rfl rfl
  have hin := s.decodeIn_inRange_iff
  refine ⟨fun h => ?_, fun h h4 => ?_, fun h h4 hmod => ?_, fun h h4 hmod => ?_⟩
  · exact exec_decode_error (State.decodeCheck_range fun h' => h (hin.1 h'))
  · exact shortDecodeIsEmptyAndNoError s h4 h
  · exact exec_decode_error (State.decodeCheck_badlen (hin.2 h) h4 hmod)
  · have hc := s.decodeCheck_none.2 ⟨hin.2 h, .inr hmod⟩
    exact ⟨_, exec_decode_text hc, (s.decodeChars_region_length hc).1, Memory.readBytes_writeBytes _ _ _,
      fun a ha => Memory.read_writeBytes_outside _ _ _ ha⟩

/-- Settles O26: the length of the decoded bytes over the last group, whose positions 2 and 3 are the last two
characters. -/
theorem decodeLengthLaw : Obligations.DecodeLengthLaw := by
  rintro s _ rfl h4 hmod hin
  have hc := s.decodeCheck_none.2 ⟨s.decodeIn_inRange_iff.2 (.inr hin), .inr hmod⟩
  refine ⟨_, exec_decode_text hc, ?_⟩
  obtain ⟨g, hg⟩ : ∃ g, s.len.toNat = 4 * (g + 1) := ⟨s.len.toNat / 4 - 1, by omega⟩
  have hlength : (decodeChars (s.readRegion s.decodeIn)).length = _ :=
    hg ▸ decodeChars_length s.mem s.src.toNat g
  have hpad := validCount_add_padCount (s.mem.readChars4 (s.src.toNat + 4 * g))
  rw [State.finishBytes_rlen, State.decode_rlen_toNat hc, hlength,
    show s.src.toNat + s.len.toNat - 2 = s.src.toNat + 4 * g + 2 by omega,
    show s.src.toNat + s.len.toNat - 1 = s.src.toNat + 4 * g + 3 by omega]
  change _ = 3 * s.len.toNat / 4 - padCount (s.mem.readChars4 (s.src.toNat + 4 * g))
  omega

/-! ## The round trip on the block (R130) -/

/-- The block after ENCODE, told to decode the text it has written. -/
def State.decodeText (s : State) : State :=
  let t := s.finishBytes s.encodeOut.start (encodeBytes (s.readRegion s.encodeIn))
  { t with src := s.dst, len := t.rlen }

/-- The region of that DECODE is the output region of the ENCODE. -/
theorem State.decodeText_decodeIn {s : State} (h : s.encodeCheck = none) : s.decodeText.decodeIn = s.encodeOut :=
  congrArg (Region.mk s.dst.toNat) (State.encode_rlen_toNat h)

/-- The text of an ENCODE that passed its checks is in range and a whole number of groups. -/
theorem State.decodeText_decodeCheck {s : State} (h : s.encodeCheck = none) : s.decodeText.decodeCheck = none := by
  obtain ⟨_, hout, _⟩ := s.encodeCheck_none.1 h
  refine s.decodeText.decodeCheck_none.2 ⟨?_, .inr ?_⟩
  · rw [State.decodeText_decodeIn h]
    exact hout
  · rw [show s.decodeText.len.toNat = s.encodeOut.size from State.encode_rlen_toNat h]
    exact Nat.mul_mod_right 4 _

/-- The text reads back as it was written, so it decodes to the input. -/
theorem State.decodeText_decodeChars {s : State} (h : s.encodeCheck = none) :
    decodeChars (s.decodeText.readRegion s.decodeText.decodeIn) = s.readRegion s.encodeIn := by
  have hback := Memory.readBytes_writeBytes s.mem s.encodeOut.start (encodeBytes (s.readRegion s.encodeIn))
  rw [s.encodeBytes_region_length] at hback
  rw [State.decodeText_decodeIn h]
  exact (congrArg decodeChars hback).trans (decodeChars_encodeBytes _)

theorem exec_decode_decodeText {s : State} (h : s.encodeCheck = none) :
    exec .decode s.decodeText = .next (s.decodeText.finishBytes s.dst.toNat (s.readRegion s.encodeIn)) := by
  rw [exec_decode_text (State.decodeText_decodeCheck h), State.decodeText_decodeChars h]
  rfl

/-- Settles O28: the DECODE of the text passes its checks, and what it writes is the input. -/
theorem roundTrip : Obligations.RoundTrip := by
  refine ⟨decodeChars_encodeBytes, fun s t _ h ht => ?_⟩
  cases hc : s.encodeCheck with
  | some e =>
    cases h.symm.trans (exec_encode_error hc)
    cases ht
  | none =>
    cases h.symm.trans (exec_encode_text hc)
    have hlen : (s.readRegion s.encodeIn).length = s.len.toNat := Memory.readBytes_length _ _ _
    refine ⟨_, exec_decode_decodeText hc, ht, ?_, ?_⟩
    · rw [State.finishBytes_rlen, hlen, BitVec.ofNat_toNat, BitVec.setWidth_eq]
    · have hback := Memory.readBytes_writeBytes s.decodeText.mem s.dst.toNat (s.readRegion s.encodeIn)
      rwa [hlen] at hback

/-! ## The text as groups (R123) -/

/-- Group `k` of a text. -/
def groupAt (ts : List Byte) (k : Nat) : Chars4 :=
  ⟨ts.getD (4 * k) 0, ts.getD (4 * k + 1) 0, ts.getD (4 * k + 2) 0, ts.getD (4 * k + 3) 0⟩

theorem groupAt_zero (c0 c1 c2 c3 : Byte) (rest : List Byte) :
    groupAt (c0 :: c1 :: c2 :: c3 :: rest) 0 = ⟨c0, c1, c2, c3⟩ := rfl

theorem groupAt_succ (c0 c1 c2 c3 : Byte) (rest : List Byte) (k : Nat) :
    groupAt (c0 :: c1 :: c2 :: c3 :: rest) (k + 1) = groupAt rest k := rfl

theorem decodeChars_groups {ts : List Byte} {g : Nat} (h : ts.length = 4 * (g + 1)) :
    decodeChars ts =
      ((List.range g).flatMap fun k => (decGroup (groupAt ts k)).toList) ++ decFinal (groupAt ts g) := by
  induction ts using decodeChars.induct generalizing g with
  | case1 c0 c1 c2 c3 =>
    obtain rfl : g = 0 := by simp only [List.length_cons, List.length_nil] at h; omega
    rfl
  | case2 c0 c1 c2 c3 rest hrest ih =>
    have hpos : 0 < rest.length := List.length_pos_iff.2 hrest
    simp only [List.length_cons] at h
    obtain ⟨g, rfl⟩ : ∃ g', g = g' + 1 := ⟨g - 1, by omega⟩
    rw [decodeChars_cons hrest, ih (g := g) (by omega), List.range_succ_eq_map]
    simp only [List.flatMap_cons, List.flatMap_map, groupAt_zero, groupAt_succ, List.append_assoc]
  | case3 ts _ hshort =>
    match ts, h with
    | c0 :: c1 :: c2 :: c3 :: rest, _ => exact absurd rfl (hshort c0 c1 c2 c3 rest)

/-- Settles O25: each group but the last gives three bytes, the last its valid ones. -/
theorem decodingIsGroupsThenFinalGroup : Obligations.DecodingIsGroupsThenFinalGroup := by
  intro ts g hg h
  obtain ⟨g, rfl⟩ : ∃ g', g = g' + 1 := ⟨g - 1, by omega⟩
  have hgroups := decodeChars_groups h
  have hfront : ((List.range g).flatMap fun k => (decGroup (groupAt ts k)).toList).length = 3 * g := by
    simp [Bytes3.toList, Nat.mul_comm]
  refine ⟨hgroups, ?_⟩
  rw [hgroups, List.length_append, hfront, decFinal_length]
  rfl

/-! ## The in-place pass (R124) -/

theorem decodeChars_readBytes_cons (m : Memory) (a g : Nat) :
    decodeChars (m.readBytes a (4 * (g + 2))) =
      (decGroup (m.readChars4 a)).toList ++ decodeChars (m.readBytes (a + 4) (4 * (g + 1))) := by
  rw [show 4 * (g + 2) = 4 + 4 * (g + 1) by omega, Memory.readBytes_add]
  refine decodeChars_toList_append (m.readChars4 a) (List.length_pos_iff.1 ?_)
  rw [Memory.readBytes_length]
  omega

/-- A write cursor at or behind the read cursor spoils no character that is still to be read. -/
theorem decodeInPlace_eq {m : Memory} {rd wr : Nat} (h : wr ≤ rd) (g : Nat) :
    decodeInPlace m rd wr g =
      (m.writeBytes wr (decodeChars (m.readBytes rd (4 * g))), wr + (decodeChars (m.readBytes rd (4 * g))).length) := by
  induction m, rd, wr, g using decodeInPlace.induct with
  | case1 m rd wr => rfl
  | case2 m rd wr =>
    rw [decodeInPlace, ← decFinal_length]
    rfl
  | case3 m rd wr g ih =>
    have hunread : (m.writeBytes wr (decGroup (m.readChars4 rd)).toList).readBytes (rd + 4) (4 * (g + 1)) =
        m.readBytes (rd + 4) (4 * (g + 1)) :=
      Memory.readBytes_congr fun x hx _ => Memory.read_writeBytes_outside _ _ _ fun hw => by
        have hxw : x < wr + 3 := hw.2
        omega
    rw [decodeInPlace, ih (by omega), hunread, decodeChars_readBytes_cons, Memory.writeBytes_append,
      List.length_append, ← Nat.add_assoc]
    rfl

/-- Settles O27: the pass starts with its cursors together; the text of a DECODE that passes its checks is whole groups, or
shorter than one and decodes to nothing. -/
theorem inPlacePassWritesTheDecodedText : Obligations.InPlacePassWritesTheDecodedText := by
  refine ⟨fun m a g => decodeInPlace_eq (Nat.le_refl a) g, fun s h => ⟨_, exec_decode_text h, ?_⟩⟩
  have htext : decodeChars (s.mem.readBytes s.src.toNat (4 * (s.len.toNat / 4))) =
      decodeChars (s.readRegion s.decodeIn) := by
    rcases (s.decodeCheck_none.1 h).2 with h4 | hmod
    · rw [(s.decodeChars_region_length h).2.1 h4, Nat.div_eq_of_lt h4]
      rfl
    · rw [Nat.mul_div_cancel' (Nat.dvd_of_mod_eq_zero hmod)]
      rfl
  rw [decodeInPlace_eq (Nat.le_refl _), htext, State.finishBytes_rlen, State.decode_rlen_toNat h, Nat.add_sub_cancel_left]
  exact ⟨rfl, rfl⟩

/-! ## Errors (R128, 60_exceptions.md R189) -/

/-- The flags of ENCODE and DECODE come from their checks alone. -/
theorem exec_encode_flags {s t : State} (h : exec .encode s = .next t) :
    t.err = (s.err || s.encodeCheck.isSome) ∧ t.errcode = (s.encodeCheck.map CmdError.code).getD s.errcode := by
  cases hc : s.encodeCheck with
  | some e => cases h.symm.trans (exec_encode_error hc); simp
  | none => cases h.symm.trans (exec_encode_text hc); simp

theorem exec_decode_flags {s t : State} (h : exec .decode s = .next t) :
    t.err = (s.err || s.decodeCheck.isSome) ∧ t.errcode = (s.decodeCheck.map CmdError.code).getD s.errcode := by
  cases hc : s.decodeCheck with
  | some e => cases h.symm.trans (exec_decode_error hc); simp
  | none => cases h.symm.trans (exec_decode_text hc); simp

/-- A group command writes DOUT and RLEN and completes. -/
theorem exec_group {i : Instr} (hi : i ∈ [Instr.encgrp, .enct1, .enct2, .decgrp, .decfin]) (s : State) :
    ∃ v n, exec i s = .next (s.finishDoutRlen v n) := by
  simp only [List.mem_cons, List.not_mem_nil, or_false] at hi
  rcases hi with rfl | rfl | rfl | rfl | rfl <;> exact ⟨_, _, rfl⟩

/-- Settles O30: no check looks at the memory, and a group command has none. -/
theorem noCharacterIsAnError : Obligations.NoCharacterIsAnError := by
  refine ⟨fun i s t u m hi ht hu => ?_, fun i s t hi ht => ?_⟩
  · rcases hi with rfl | rfl
    · obtain ⟨het, hct⟩ := exec_encode_flags ht
      obtain ⟨heu, hcu⟩ := exec_encode_flags hu
      exact ⟨heu.trans het.symm, hcu.trans hct.symm⟩
    · obtain ⟨het, hct⟩ := exec_decode_flags ht
      obtain ⟨heu, hcu⟩ := exec_decode_flags hu
      exact ⟨heu.trans het.symm, hcu.trans hct.symm⟩
  · obtain ⟨v, n, h⟩ := exec_group hi s
    cases ht.symm.trans h
    exact ⟨rfl, rfl⟩

/-! ## The group commands (R126, R127) -/

/-- DIN's group of four as two pair indices. -/
theorem decGroup_inG4C (w : Word) :
    decGroup (inG4C w) = unpack24 (pairReverse (w.extractLsb' 16 16) ++ pairReverse (w.extractLsb' 0 16)) := by
  have hhi : w.extractLsb' 24 8 ++ w.extractLsb' 16 8 = w.extractLsb' 16 16 :=
    BitVec.extractLsb'_append_extractLsb'_eq_extractLsb' rfl
  have hlo : w.extractLsb' 8 8 ++ w.extractLsb' 0 8 = w.extractLsb' 0 16 :=
    BitVec.extractLsb'_append_extractLsb'_eq_extractLsb' rfl
  simp only [decGroup, inG4C, pidx_eq_append, join12_eq_append, hhi, hlo]

/-- Settles O21: the two pairs of characters in DIN are halves of DIN. -/
theorem decgrpDecodesANonFinalGroup : Obligations.DecgrpDecodesANonFinalGroup := by
  refine ⟨decodeCmd_encode .decgrp, fun s => ?_⟩
  have hassoc (x y : BitVec 12) : 0#8 ++ (x ++ y) = 0#8 ++ x ++ y := BitVec.append_assoc.symm
  simp only [exec, execDecgrp, decGroup_inG4C, outG3B_unpack24, hassoc]
  rfl

/-- What is left in DOUT of the three bytes of a 24-bit value, cut to the valid ones. -/
theorem outG3B_zeroBeyond_one (v : BitVec 24) :
    outG3B (zeroBeyond 1 (unpack24 v)) = 0#8 ++ v.extractLsb' 16 8 ++ 0#16 := by
  have hzeros (x : BitVec 16) : x ++ 0#8 ++ 0#8 = x ++ 0#16 := BitVec.append_assoc
  exact hzeros (0#8 ++ v.extractLsb' 16 8)

theorem outG3B_zeroBeyond_two (v : BitVec 24) :
    outG3B (zeroBeyond 2 (unpack24 v)) = 0#8 ++ v.extractLsb' 8 16 ++ 0#8 :=
  congrArg (· ++ 0#8) (zero_append_slices v)

/-- Settles O22: the padding in DIN decides how many bytes are left. -/
theorem decfinDecodesAFinalGroup : Obligations.DecfinDecodesAFinalGroup := by
  refine ⟨decodeCmd_encode .decfin, fun s v hv => ?_⟩
  have hbytes : decFinalBytes (inG4C s.din) = unpack24 v := by
    rw [hv, decFinalBytes, join6_eq_append]
    rfl
  have run {k : Nat} {d : Word} (hk : validCount (inG4C s.din) = k) (hd : outG3B (zeroBeyond k (unpack24 v)) = d) :
      exec .decfin s = .next (s.finishDoutRlen d (BitVec.ofNat 32 k)) := by
    rw [← hd, ← hk, ← hbytes]
    rfl
  refine ⟨fun h2 => ?_, fun h2 h3 => ?_, fun h2 h3 => ?_⟩
  · exact run (if_pos h2) (outG3B_zeroBeyond_one v)
  · exact run ((if_neg h2).trans (if_pos h3)) (outG3B_zeroBeyond_two v)
  · exact run ((if_neg h2).trans (if_neg h3)) (outG3B_unpack24 v)

end Sys2Proof.Machine
end

section
/-! PROOFS. The lookup ROM (43_lookup_rom.md): what the four ways hold, and the four commands that read them. -/

namespace Sys2Proof.Machine

/-! ## The ways (R142 to R147, R153) -/

/-- Settles O31: FORWARD is a table, compared entry by entry with the order of R142. -/
theorem forwardHoldsTheStandardAlphabet : Obligations.ForwardHoldsTheStandardAlphabet := by
  unfold Obligations.ForwardHoldsTheStandardAlphabet
  decide

theorem alphaValue_eq_some_iff {c : Byte} {v : BitVec 6} : alphaValue c = some v ↔ forward v = c :=
  ⟨forward_of_alphaValue, fun h => h ▸ alphaValue_forward v⟩

theorem alphaValue_eq_none_iff {c : Byte} : alphaValue c = none ↔ ∀ v : BitVec 6, forward v ≠ c := by
  simp only [Option.eq_none_iff_forall_ne_some, ne_eq, alphaValue_eq_some_iff]

theorem forward_injective : Function.Injective forward :=
  Function.LeftInverse.injective reverse_forward

theorem isAlpha_iff_exists_forward {c : Byte} : isAlpha c = true ↔ ∃ v : BitVec 6, forward v = c := by
  simp only [isAlpha, Option.isSome_iff_exists, alphaValue_eq_some_iff]

theorem pairForward_append (f0 f1 : BitVec 6) : pairForward (f0 ++ f1) = forward f0 ++ forward f1 := by
  rw [pairForward_eq_append, BitVec.extractLsb'_append_eq_left, BitVec.extractLsb'_append_eq_right]

@[simp] theorem pairReverse_pairForward (i : BitVec 12) : pairReverse (pairForward i) = i := by
  rw [pairForward_eq_append, pairReverse_forward]
  exact (BitVec.extractLsb'_append_extractLsb'_eq_extractLsb' rfl).trans BitVec.extractLsb'_eq_self

/-- REVERSE at a non-alphabet byte is the open entry (R145). -/
theorem reverse_of_forall_forward_ne {c : Byte} (h : ∀ v : BitVec 6, forward v ≠ c) :
    reverse c = Config.revInvalid c := by
  rw [reverse, alphaValue_eq_none_iff.2 h, Option.getD_none]

/-- PAIR_REVERSE at a pair with a non-alphabet byte is the open entry (R147). -/
theorem pairReverse_of_forall_forward_ne {c0 c1 : Byte}
    (h : (∀ v : BitVec 6, forward v ≠ c0) ∨ ∀ v : BitVec 6, forward v ≠ c1) :
    pairReverse (c0 ++ c1) = Config.prevInvalid (c0 ++ c1) := by
  rw [pairReverse_append]
  rcases h with h0 | h1
  · rw [alphaValue_eq_none_iff.2 h0]
  · rw [alphaValue_eq_none_iff.2 h1]
    cases alphaValue c0 <;> rfl

/-- Settles O36: each law is one about the entries. -/
theorem reverseTablesUndoForwardTables : Obligations.ReverseTablesUndoForwardTables :=
  ⟨reverse_forward, fun _ _ h => forward_injective h, fun _ => isAlpha_iff_exists_forward, forward_ne_padChar,
    pairReverse_pairForward⟩

/-! ## The commands (R149 to R152) -/

theorem toNat_append_eq_add {n m : Nat} (x : BitVec n) (y : BitVec m) : (x ++ y).toNat = 2 ^ m * x.toNat + y.toNat := by
  rw [BitVec.toNat_append, ← Nat.shiftLeft_add_eq_or_of_lt y.isLt, Nat.shiftLeft_eq, Nat.mul_comm]

/-- A ROM read at an index of the way: the entry in format ENT, and the completion. -/
theorem State.romRead_entry {n w : Nat} {s : State} {entry : BitVec w → BitVec n} {i : BitVec w} {d : Word}
    (hi : s.din.toNat = i.toNat) (hd : outENT (entry i) = d) : s.romRead w entry = s.finishDout d := by
  rcases s.romRead_cases w entry with ⟨hge, _⟩ | ⟨_, hr⟩
  · exact absurd i.isLt (by omega)
  · rw [hr, hi, BitVec.ofNat_toNat, BitVec.setWidth_eq, hd]

/-- A ROM read at or beyond the way's entry count. -/
theorem State.romRead_index {n w : Nat} {s : State} {entry : BitVec w → BitVec n} (h : 2 ^ w ≤ s.din.toNat) :
    s.romRead w entry = s.raise .index := by
  rcases s.romRead_cases w entry with ⟨_, hr⟩ | ⟨hlt, _⟩
  · exact hr
  · omega

/-- Settles O32: the index is the field. -/
theorem romrdReadsForward : Obligations.RomrdReadsForward := by
  refine ⟨decodeCmd_encode .romrdF, fun s => ⟨fun v hv => ?_, fun hge => ?_⟩⟩
  · exact congrArg _ (State.romRead_entry hv (BitVec.setWidth_eq_append (by decide)))
  · exact congrArg _ (State.romRead_index hge)

/-- Settles O33: the index is the two fields side by side, and the entry is their two characters. -/
theorem romrdReadsPairForward : Obligations.RomrdReadsPairForward := by
  refine ⟨decodeCmd_encode .romrdPf, fun s => ⟨fun f0 f1 hf => ?_, fun hge => ?_⟩⟩
  · have hentry : outENT (pairForward (f0 ++ f1)) = 0#16 ++ forward f0 ++ forward f1 := by
      rw [pairForward_append]
      exact (BitVec.setWidth_eq_append (by decide)).trans BitVec.append_assoc.symm
    exact congrArg _ (State.romRead_entry (hf.trans (toNat_append_eq_add f0 f1).symm) hentry)
  · exact congrArg _ (State.romRead_index hge)

/-- Settles O34: the index is the byte, and its entry is the value where the byte has one. -/
theorem romrdReadsReverse : Obligations.RomrdReadsReverse := by
  refine ⟨decodeCmd_encode .romrdR, fun s => ⟨fun v hv => ?_, fun c hc hopen => ?_, fun hge => ?_⟩⟩
  · have hentry : outENT (reverse (forward v)) = 0#26 ++ v := by
      rw [reverse_forward]
      exact BitVec.setWidth_eq_append (by decide)
    exact congrArg _ (State.romRead_entry hv hentry)
  · have hentry : outENT (reverse c) = 0#26 ++ Config.revInvalid c := by
      rw [reverse_of_forall_forward_ne hopen]
      exact BitVec.setWidth_eq_append (by decide)
    exact congrArg _ (State.romRead_entry hc hentry)
  · exact congrArg _ (State.romRead_index hge)

/-- Settles O35: the index is the two bytes side by side, and its entry is the two values where both bytes have one. -/
theorem romrdReadsPairReverse : Obligations.RomrdReadsPairReverse := by
  refine ⟨decodeCmd_encode .romrdPr, fun s => ⟨fun v0 v1 hv => ?_, fun c0 c1 hc hopen => ?_, fun hge => ?_⟩⟩
  · have hentry : outENT (pairReverse (forward v0 ++ forward v1)) = 0#20 ++ v0 ++ v1 := by
      rw [pairReverse_forward]
      exact (BitVec.setWidth_eq_append (by decide)).trans BitVec.append_assoc.symm
    exact congrArg _ (State.romRead_entry (hv.trans (toNat_append_eq_add (forward v0) (forward v1)).symm) hentry)
  · have hentry : outENT (pairReverse (c0 ++ c1)) = 0#20 ++ Config.prevInvalid (c0 ++ c1) := by
      rw [pairReverse_of_forall_forward_ne hopen]
      exact BitVec.setWidth_eq_append (by decide)
    exact congrArg _ (State.romRead_entry (hc.trans (toNat_append_eq_add c0 c1).symm) hentry)
  · exact congrArg _ (State.romRead_index hge)

end Sys2Proof.Machine
end

section
/-! PROOFS. The bit packing unit (44_bit_pack_unpack.md): the inverse laws of its functions and its two commands. -/

namespace Sys2Proof.Machine

/-! ## The laws of the functions (R160 to R165, R168) -/

theorem pack24_unpack24 (v : BitVec 24) : pack24 (unpack24 v) = v := by
  rw [pack24_eq_append]
  simp only [unpack24, BitVec.extractLsb'_append_extractLsb'_eq_extractLsb']
  exact BitVec.extractLsb'_eq_self

theorem split6_join6 (f : Fields4) : split6 (join6 f) = f := by
  have low {n : Nat} (x : BitVec n) (v : BitVec 6) : (x ++ v).extractLsb' 0 6 = v := BitVec.extractLsb'_append_eq_right
  have high {n : Nat} (i : Nat) (x : BitVec n) (v : BitVec 6) : (x ++ v).extractLsb' (i + 6) 6 = x.extractLsb' i 6 :=
    BitVec.extractLsb'_append_eq_of_le (Nat.le_add_left 6 i)
  have h0 : (f.f0 ++ f.f1 ++ f.f2 ++ f.f3).extractLsb' 18 6 = f.f0 :=
    (high 12 _ _).trans ((high 6 _ _).trans BitVec.extractLsb'_append_eq_left)
  have h1 : (f.f0 ++ f.f1 ++ f.f2 ++ f.f3).extractLsb' 12 6 = f.f1 :=
    (high 6 _ _).trans ((high 0 _ _).trans (low _ _))
  have h2 : (f.f0 ++ f.f1 ++ f.f2 ++ f.f3).extractLsb' 6 6 = f.f2 := (high 0 _ _).trans (low _ _)
  have h3 : (f.f0 ++ f.f1 ++ f.f2 ++ f.f3).extractLsb' 0 6 = f.f3 := low _ _
  rw [join6_eq_append, split6, h0, h1, h2, h3]

theorem join12_split12 (v : BitVec 24) : join12 (split12 v).1 (split12 v).2 = v := by
  rw [join12_eq_append]
  exact (BitVec.extractLsb'_append_extractLsb'_eq_extractLsb' rfl).trans BitVec.extractLsb'_eq_self

theorem split12_join12 (hi lo : BitVec 12) : split12 (join12 hi lo) = (hi, lo) := by
  rw [join12_eq_append, split12, BitVec.extractLsb'_append_eq_left, BitVec.extractLsb'_append_eq_right]

/-- A half is two neighbouring fields. -/
theorem split12_eq_append (v : BitVec 24) :
    split12 v = ((split6 v).f0 ++ (split6 v).f1, (split6 v).f2 ++ (split6 v).f3) := by
  have hhi : v.extractLsb' 18 6 ++ v.extractLsb' 12 6 = v.extractLsb' 12 12 :=
    BitVec.extractLsb'_append_extractLsb'_eq_extractLsb' rfl
  have hlo : v.extractLsb' 6 6 ++ v.extractLsb' 0 6 = v.extractLsb' 0 12 :=
    BitVec.extractLsb'_append_extractLsb'_eq_extractLsb' rfl
  rw [split12, split6, hhi, hlo]

/-- Settles O39: each law is one about concatenations, and a shift and an or put two fields side by side. -/
theorem packingLaws : Obligations.PackingLaws := by
  refine ⟨unpack24_pack24, pack24_unpack24, join6_split6, split6_join6, join12_split12, split12_join12, fun v => ?_⟩
  rw [or_shift_eq_append, or_shift_eq_append, BitVec.setWidth_eq, BitVec.setWidth_eq, split12_eq_append]

/-! ## The commands (R166, R167) -/

/-- Format F6X4: each field below two zeros. -/
theorem outF6X4_eq_append (f : Fields4) :
    outF6X4 f = 0#2 ++ f.f0 ++ 0#2 ++ f.f1 ++ 0#2 ++ f.f2 ++ 0#2 ++ f.f3 := by
  have hfield (v : BitVec 6) : v.setWidth 8 = 0#2 ++ v := BitVec.setWidth_eq_append (by decide)
  have hassoc {n : Nat} (x : BitVec n) (v : BitVec 6) : x ++ (0#2 ++ v) = x ++ 0#2 ++ v := BitVec.append_assoc.symm
  simp only [outF6X4, hfield, hassoc]

/-- The four joined fields, zero-extended to a word. -/
theorem join6_setWidth (f : Fields4) : (join6 f).setWidth 32 = 0#8 ++ f.f0 ++ f.f1 ++ f.f2 ++ f.f3 := by
  have hassoc {n : Nat} (x : BitVec n) (v : BitVec 6) : 0#8 ++ (x ++ v) = 0#8 ++ x ++ v := BitVec.append_assoc.symm
  rw [join6_eq_append, ← hassoc, ← hassoc, ← hassoc]
  exact BitVec.setWidth_eq_append (by decide)

/-- Settles O37: the fields of DIN's group are fields of DIN. -/
theorem splitSixSplitsTheGroup : Obligations.SplitSixSplitsTheGroup := by
  refine ⟨decodeCmd_encode .split6, fun s => ?_⟩
  simp only [exec, execSplit6, split6_setWidth, outF6X4_eq_append]
  rfl

/-- Settles O38: the four fields are slices of DIN. -/
theorem joinSixJoinsTheFields : Obligations.JoinSixJoinsTheFields := by
  refine ⟨decodeCmd_encode .join6, fun s => ?_⟩
  simp only [exec, execJoin6, join6_setWidth, inF6X4]
  rfl

end Sys2Proof.Machine
end

section
/-! PROOFS. Errors and the interrupt (60_exceptions.md): the completions of words that are no command, and which steps
raise or lower `irq`. -/

namespace Sys2Proof.Machine

/-! ## Words that are no command (R181, R182) -/

theorem complete_illegal {s : State} (hd : s.disturbed = false) (h : decodeCmd s.cmd = .illegal) :
    complete s = .next (s.raise .illegal) := by
  simp only [complete, h, State.settle_undisturbed hd]

theorem complete_reserved {s : State} (hd : s.disturbed = false) (h : decodeCmd s.cmd = .reserved) :
    complete s = .next (s.raise .reserved) := by
  simp only [complete, h, State.settle_undisturbed hd]

/-- Settles O8: O4 says that the word decodes to ILLEGAL, whose completion is `State.raise`. -/
theorem illegalWordCompletesWithCodeOne : Obligations.IllegalWordCompletesWithCodeOne := by
  intro s rest hb hd h hopc
  have hill : decodeCmd s.cmd = .illegal := (otherWordsAreIllegalOrReserved s.cmd).1.2 hopc
  exact (step_turn hb h).trans (complete_illegal (s := { s with inputs := rest }) hd hill)

/-- Settles O9: O4 says that the word decodes to RESERVED, whose completion is `State.raise`. -/
theorem reservedWordCompletesWithCodeTwo : Obligations.ReservedWordCompletesWithCodeTwo := by
  intro s rest hb hd h hopc hbits
  have hres : decodeCmd s.cmd = .reserved := (otherWordsAreIllegalOrReserved s.cmd).2.1.2 ⟨hopc, hbits⟩
  exact (step_turn hb h).trans (complete_reserved (s := { s with inputs := rest }) hd hres)

/-! ## The interrupt line (R187) -/

theorem State.irq_iff (s : State) : s.irq = true ↔ s.done = true ∧ s.doneIe = true := Bool.and_eq_true_iff

/-- After any completion the line is its enable. -/
theorem complete_irq (s : State) : ∃ t, complete s = .next t ∧ t.irq = s.doneIe := by
  obtain ⟨t, ht, _, hdone, _, hie, _⟩ := complete_next s
  exact ⟨t, ht, by simp [State.irq, hdone, hie]⟩

/-- The whole step in which a pending command completes, at the block's turn or with nothing left to happen (log 4). -/
theorem step_completion_irq {s : State} (hb : s.busy = true) (hin : s.inputs = [] ∨ ∃ rest, s.inputs = .turn :: rest) :
    ∃ t, step s = .next t ∧ t.irq = s.doneIe := by
  rcases hin with h | ⟨rest, h⟩
  · rw [step_no_input hb h]
    exact complete_irq s
  · rw [step_turn hb h]
    exact complete_irq { s with inputs := rest }

theorem Reg.eq_three_of_ofIndex_eq_irqen : ∀ idx : Fin 16, Reg.ofIndex idx = .irqen → idx = 3 := by decide

theorem Reg.eq_one_of_ofIndex_eq_cmd : ∀ idx : Fin 16, Reg.ofIndex idx = .cmd → idx = 1 := by decide

/-- What a register write does to the line: only STATUS, IRQEN and an accepted CMD touch it. -/
theorem State.hostWrite_irq (s : State) (r : Reg) (v : Word) :
    (s.hostWrite r v).irq = s.irq ∨
    (r = .status ∧ (s.hostWrite r v).irq = (s.irq && !v.getLsbD 1)) ∨
    (r = .irqen ∧ (s.hostWrite r v).irq = (s.done && v.getLsbD 0)) ∨
    (r = .cmd ∧ s.busy = false ∧ (s.hostWrite r v).irq = false) := by
  rcases s.hostWrite_cases r v with h | ⟨_, _, h⟩ | ⟨_, hr, h⟩ | ⟨_, hr, h⟩ | ⟨_, hb, hr, h⟩ |
    ⟨_, _, h | h | h | h⟩ <;> rw [h]
  · exact .inl rfl
  · exact .inl rfl
  · exact .inr (.inl ⟨hr, Bool.and_right_comm _ _ _⟩)
  · exact .inr (.inr (.inl ⟨hr, rfl⟩))
  · exact .inr (.inr (.inr ⟨hr, hb, rfl⟩))
  · exact .inl rfl
  · exact .inl rfl
  · exact .inl rfl
  · exact .inl rfl

/-- What a step does to the line: nothing, or one of R187's events, each with the value it leaves. -/
theorem step_irq {s t : State} (h : step s = .next t) :
    t.irq = s.irq ∨
    (s.busy = true ∧ (s.inputs = [] ∨ ∃ rest, s.inputs = .turn :: rest) ∧ t.irq = s.doneIe) ∨
    (∃ v rest, s.inputs = .host (.wr 2 v) :: rest ∧ t.irq = (s.irq && !v.getLsbD 1)) ∨
    (∃ v rest, s.inputs = .host (.wr 3 v) :: rest ∧ t.irq = (s.done && v.getLsbD 0)) ∨
    (∃ v rest, s.inputs = .host (.wr 1 v) :: rest ∧ s.busy = false ∧ t.irq = false) ∨
    (∃ rest, s.inputs = .rstAssert :: rest ∧ t.irq = false) := by
  rcases step_next h with ⟨hin, hs⟩ | ⟨idx, v, rest, hin, rfl⟩ | ⟨_, _, _, _, _, rfl⟩ | ⟨rest, hin, rfl⟩ | rfl
  · cases hb : s.busy with
    | true =>
      obtain ⟨u, hu, hirq⟩ := step_completion_irq hb hin
      cases h.symm.trans hu
      exact .inr (.inl ⟨rfl, hin, hirq⟩)
    | false =>
      rw [blockStep_idle (s := s.pop) hb] at hs
      cases hs
      exact .inl rfl
  · rcases s.pop.hostWrite_irq (Reg.ofIndex idx) v with hw | ⟨hr, hw⟩ | ⟨hr, hw⟩ | ⟨hr, hb, hw⟩
    · exact .inl hw
    · cases Reg.eq_two_of_ofIndex_eq_status idx hr
      exact .inr (.inr (.inl ⟨v, rest, hin, hw⟩))
    · cases Reg.eq_three_of_ofIndex_eq_irqen idx hr
      exact .inr (.inr (.inr (.inl ⟨v, rest, hin, hw⟩)))
    · cases Reg.eq_one_of_ofIndex_eq_cmd idx hr
      exact .inr (.inr (.inr (.inr (.inl ⟨v, rest, hin, hb, hw⟩))))
  · exact .inl rfl
  · exact .inr (.inr (.inr (.inr (.inr ⟨rest, hin, rfl⟩))))
  · exact .inl rfl

/-- Of the events of `step_irq` only a completion and a write of IRQEN can leave 1 where 0 was. -/
theorem step_irq_rises {s t : State} (h : step s = .next t) (h0 : s.irq = false) (h1 : t.irq = true) :
    (s.busy = true ∧ s.doneIe = true ∧ (s.inputs = [] ∨ ∃ rest, s.inputs = .turn :: rest)) ∨
    (s.done = true ∧ ∃ v rest, s.inputs = .host (.wr 3 v) :: rest ∧ v.getLsbD 0 = true) := by
  rcases step_irq h with ht | ⟨hb, hin, ht⟩ | ⟨v, rest, _, ht⟩ | ⟨v, rest, hin, ht⟩ | ⟨_, _, _, _, ht⟩ | ⟨_, _, ht⟩ <;>
    rw [h1] at ht
  · simp [h0] at ht
  · exact .inl ⟨hb, ht.symm, hin⟩
  · simp [h0] at ht
  · obtain ⟨hdone, hv⟩ := Bool.and_eq_true_iff.1 ht.symm
    exact .inr ⟨hdone, v, rest, hin, hv⟩
  · cases ht
  · cases ht

/-- Of the events of `step_irq` only a completion cannot leave 0 where 1 was: the enable was set. -/
theorem step_irq_falls {s t : State} (h : step s = .next t) (h1 : s.irq = true) (h0 : t.irq = false) :
    (∃ rest, s.inputs = .rstAssert :: rest) ∨
    (∃ v rest, s.inputs = .host (.wr 2 v) :: rest ∧ v.getLsbD 1 = true) ∨
    (∃ v rest, s.inputs = .host (.wr 3 v) :: rest ∧ v.getLsbD 0 = false) ∨
    (s.busy = false ∧ ∃ v rest, s.inputs = .host (.wr 1 v) :: rest) := by
  obtain ⟨hdone, hie⟩ := s.irq_iff.1 h1
  rcases step_irq h with ht | ⟨_, _, ht⟩ | ⟨v, rest, hin, ht⟩ | ⟨v, rest, hin, ht⟩ | ⟨v, rest, hin, hb, _⟩ | ⟨rest, hin, _⟩
  · simp [h0, h1] at ht
  · simp [h0, hie] at ht
  · exact .inr (.inl ⟨v, rest, hin, by simpa [h0, h1] using ht⟩)
  · exact .inr (.inr (.inl ⟨v, rest, hin, by simpa [h0, hdone] using ht⟩))
  · exact .inr (.inr (.inr ⟨hb, v, rest, hin⟩))
  · exact .inl ⟨rest, hin⟩

/-- Settles O47: `step_irq` names the steps that touch the line, and a completion leaves it at its enable. -/
theorem interruptRisesAndFallsOnlyByItsEvents : Obligations.InterruptRisesAndFallsOnlyByItsEvents := by
  refine ⟨State.irq_iff, fun s t => step_irq_rises, fun s hb hie hin => ?_, fun s t => step_irq_falls⟩
  obtain ⟨t, ht, hirq⟩ := step_completion_irq hb hin
  exact ⟨t, ht, hirq.trans hie⟩

end Sys2Proof.Machine
end

section
/-! PROOFS. Reset and hazards (70_reset_and_hazards.md): the assertion of `rst` and what it leaves of the memory, the
accesses made while it is asserted, the regions of R58's table, and the completion of a disturbed command. -/

namespace Sys2Proof.Machine

/-! ## Reset (R200 to R202) -/

theorem step_rstAssert {s : State} {rest : List Input} (h : s.inputs = .rstAssert :: rest) :
    step s = .next (State.assertReset { s with inputs := rest }) := by
  simp only [step, h]

theorem step_rstRelease {s : State} {rest : List Input} (h : s.inputs = .rstRelease :: rest) :
    step s = .next (State.releaseReset { s with inputs := rest }) := by
  simp only [step, h]

theorem State.assertReset_atReset (s : State) : s.assertReset.atReset :=
  ⟨rfl, rfl, rfl, rfl, rfl, rfl, rfl, rfl, rfl, rfl, rfl, rfl, rfl⟩

theorem State.hostWrite_inReset {s : State} (hr : s.rst = true) (r : Reg) (v : Word) : s.hostWrite r v = s := by
  simp only [State.hostWrite, hr, if_true]

theorem State.hostRead_inReset {s : State} (hr : s.rst = true) (r : Reg) :
    s.hostRead r = { s with reply := .word 0 } := by
  simp only [State.hostRead, hr, if_true]

/-- Settles O49: the assertion writes every register, and the register port looks at the line first. -/
theorem resetClearsEveryRegister : Obligations.ResetClearsEveryRegister := by
  refine ⟨fun s rest h => ⟨_, step_rstAssert h, State.assertReset_atReset _, rfl, rfl, rfl⟩,
    fun s idx v rest hr => ⟨fun h => ?_, fun h => ?_⟩, fun s rest h => step_rstRelease h⟩
  · rw [step_wr h, State.hostWrite_inReset (s := { s with inputs := rest }) hr]
  · rw [step_rd h, State.hostRead_inReset (s := { s with inputs := rest }) hr]

theorem State.abortRegion_encode {s : State} (hb : s.busy = true) (hi : decodeCmd s.cmd = .legal .encode)
    (hc : s.encodeCheck = none) : s.abortRegion = s.encodeOut := by
  simp [State.abortRegion, State.pending, hb, hi, hc]

theorem State.abortRegion_decode {s : State} (hb : s.busy = true) (hi : decodeCmd s.cmd = .legal .decode)
    (hc : s.decodeCheck = none) : s.abortRegion = s.decodeIn := by
  simp [State.abortRegion, State.pending, hb, hi, hc]

/-- Nothing is left open where no ENCODE or DECODE that would have written is aborted (R202). -/
theorem State.abortRegion_empty {s : State}
    (he : s.busy = true → decodeCmd s.cmd = .legal .encode → s.encodeCheck ≠ none)
    (hd : s.busy = true → decodeCmd s.cmd = .legal .decode → s.decodeCheck ≠ none) : s.abortRegion = .empty := by
  have hen : (s.pending .encode && s.encodeCheck.isNone) = false := by
    simpa [State.pending, Option.isSome_iff_ne_none] using he
  have hde : (s.pending .decode && s.decodeCheck.isNone) = false := by
    simpa [State.pending, Option.isSome_iff_ne_none] using hd
  simp only [State.abortRegion, hen, hde, Bool.false_eq_true, if_false]

/-- The memory after an assertion of `rst`: as before outside the aborted region, and in it the draws. -/
theorem State.assertReset_memory {s : State} {start size : Nat} (h : s.abortRegion = ⟨start, size⟩) :
    (∀ a, ¬ (start ≤ a ∧ a < start + size) → s.assertReset.readByte a = s.readByte a) ∧
    ∀ k, k < size → s.assertReset.readByte (start + k) = Config.drawByte (s.draws + k) := by
  have hmem : ∀ a, s.assertReset.readByte a = (s.scramble ⟨start, size⟩).readByte a := fun a => by rw [← h]; rfl
  refine ⟨fun a ha => (hmem a).trans (s.scramble_readByte_outside ⟨start, size⟩ ?_),
    fun k hk => (hmem _).trans (s.scramble_readByte_inside ⟨start, size⟩ hk)⟩
  rwa [← Bool.not_eq_true, Region.contains_iff]

/-- Settles O50: in each case the aborted region is known, and `State.assertReset_memory` says what becomes of it. -/
theorem resetLeavesMemoryButTheAbortedRegion : Obligations.ResetLeavesMemoryButTheAbortedRegion := by
  intro s rest h
  have untouched : s.abortRegion = .empty →
      ∀ a, (State.assertReset { s with inputs := rest }).readByte a = s.readByte a := fun he a =>
    (State.assertReset_memory (s := { s with inputs := rest }) he).1 a fun ha => absurd ha.2 (Nat.not_lt.2 ha.1)
  refine ⟨_, step_rstAssert h, fun hb => ?_, fun hb hi hc => ?_, fun hb hi hc => ?_, fun hb he hd => ?_⟩
  · exact untouched (State.abortRegion_empty (fun h => by simp [hb] at h) fun h => by simp [hb] at h)
  · exact State.assertReset_memory (s := { s with inputs := rest }) (State.abortRegion_encode hb hi hc)
  · exact State.assertReset_memory (s := { s with inputs := rest }) (State.abortRegion_decode hb hi hc)
  · exact untouched (State.abortRegion_empty (fun _ => he) fun _ => hd)

/-! ## The regions of the pending command (20_memory.md R58) -/

theorem State.pendingRegions_encode {s : State} (hb : s.busy = true) (hi : decodeCmd s.cmd = .legal .encode) :
    s.pendingReads = s.encodeIn ∧ s.pendingWrites = s.encodeOut := by
  simp [State.pendingReads, State.pendingWrites, State.pending, hb, hi]

theorem State.pendingRegions_decode {s : State} (hb : s.busy = true) (hi : decodeCmd s.cmd = .legal .decode) :
    s.pendingReads = s.decodeIn ∧ s.pendingWrites = ⟨s.src.toNat, s.decodeOutSize⟩ := by
  simp [State.pendingReads, State.pendingWrites, State.pending, hb, hi]

/-- An undisturbed DECODE writes as many bytes as its RLEN says (42_decoder.md R125, R129), none on an error. -/
theorem exec_decode_rlen {s : State} (hd : s.disturbed = false) :
    ∃ t, exec .decode s = .next t ∧ t.rlen.toNat = s.decodeOutSize := by
  cases hc : s.decodeCheck with
  | some e => exact ⟨_, exec_decode_error hc, by simp [State.decodeOutSize, hc]⟩
  | none =>
    obtain ⟨_, _, hlen⟩ := s.decodeChars_region_length hc
    exact ⟨_, exec_decode_text hc, (State.decode_rlen_toNat hc).trans (hlen hd)⟩

/-- The bound that a disturbed DECODE takes for its RLEN (log 8). -/
theorem State.decodeOutSize_disturbed {s : State} (hd : s.disturbed = true) :
    s.decodeOutSize = if s.decodeCheck = none ∧ 4 ≤ s.len.toNat then 3 * s.len.toNat / 4 else 0 := by
  by_cases hl : s.len.toNat < 4
  · simp [State.decodeOutSize, hl, Nat.not_le.2 hl]
  · cases hc : s.decodeCheck <;> simp [State.decodeOutSize, hc, hd, hl, Nat.not_lt.1 hl]

/-- The write region of a disturbed DECODE (log 8). -/
theorem State.decodeWrites_disturbed {s : State} (hd : s.disturbed = true) (x : Nat) :
    Region.contains ⟨s.src.toNat, s.decodeOutSize⟩ x = true ↔
      s.decodeCheck = none ∧ 4 ≤ s.len.toNat ∧ s.src.toNat ≤ x ∧ x < s.src.toNat + 3 * s.len.toNat / 4 := by
  rw [Region.contains_iff, State.decodeOutSize_disturbed hd]
  by_cases hc : s.decodeCheck = none ∧ 4 ≤ s.len.toNat
  · simp [hc]
  · rw [if_neg hc, Nat.add_zero, ← and_assoc (a := s.decodeCheck = none)]
    exact iff_of_false (fun h => absurd h.2 (Nat.not_lt.2 h.1)) fun h => hc h.1

/-! ## A hazard, and the completion after it (R210) -/

theorem State.hostWrite_hazard (s : State) (r : Reg) (v : Word) : (s.hostWrite r v).hazard = s.hazard := by
  rcases s.hostWrite_cases r v with h | ⟨_, _, h⟩ | ⟨_, _, h⟩ | ⟨_, _, h⟩ | ⟨_, _, _, h⟩ | ⟨_, _, h | h | h | h⟩ <;>
    rw [h] <;> rfl

theorem hostStep_keeps_hazard {s t : State} {op : HostOp} (h : hostStep s op = .next t) (hs : s.hazard = true) :
    t.hazard = true := by
  rcases hostStep_cases s op with ⟨idx, _, e⟩ | ⟨idx, v, _, e⟩ | ⟨a, n, _, _, e⟩ | ⟨a, bs, _, _, e⟩ | ⟨_, e⟩ <;>
    rw [e] at h <;> cases h
  · obtain ⟨w, k, hk⟩ := s.hostRead_eq (Reg.ofIndex idx)
    rw [hk]
    exact hs
  · exact (s.hostWrite_hazard _ v).trans hs
  · exact hs
  · exact Bool.or_eq_true_iff.2 (.inl hs)

/-- No step clears the hazard mark, reset included. -/
theorem step_keeps_hazard {s t : State} (h : step s = .next t) (hs : s.hazard = true) : t.hazard = true := by
  rcases step_cases s with ⟨_, e⟩ | ⟨op, _, _, e⟩ | ⟨_, _, e⟩ | ⟨_, _, e⟩ <;> rw [e] at h
  · obtain ⟨u, hu, _, _, _, _, hz, _⟩ := blockStep_next s.pop
    cases h.symm.trans hu
    exact hz.trans hs
  · exact hostStep_keeps_hazard h hs
  · cases h
    exact hs
  · cases h
    exact hs

/-- A host write that disturbs changes the two marks and the memory alone. -/
theorem State.hostMemWrite_disturbing {s : State} {a : Nat} {bs : List Byte} (h : s.disturbs ⟨a, bs.length⟩ = true) :
    s.hostMemWrite a bs = { s.writeBytes a bs with hazard := true, disturbed := true } := by
  simp only [State.hostMemWrite, h, Bool.or_true]

theorem Region.clip_contains_iff (r : Region) (n a : Nat) :
    (r.clip n).contains a = true ↔ r.contains a = true ∧ a < n := by
  simp only [Region.contains_iff, Region.clip]
  omega

theorem State.scramble_readByte_contains (s : State) {r : Region} {a : Nat} (h : r.contains a = true) :
    ∃ k, (s.scramble r).readByte a = Config.drawByte k := by
  obtain ⟨h1, h2⟩ := (Region.contains_iff r a).1 h
  obtain ⟨k, rfl⟩ := Nat.exists_eq_add_of_le h1
  exact ⟨_, s.scramble_readByte_inside r (by omega)⟩

/-- The memory after the completion of a disturbed command: as the completion left it outside the write region, and a
draw at each byte of it that exists. -/
theorem State.afterHazard_memory (s t : State) :
    (∀ a, s.pendingWrites.contains a = false → (s.afterHazard t).readByte a = t.readByte a) ∧
    ∀ a, a < s.memSize → s.pendingWrites.contains a = true → ∃ k, (s.afterHazard t).readByte a = Config.drawByte k := by
  refine ⟨fun a ha => t.scramble_readByte_outside _ ?_, fun a hm ha => t.scramble_readByte_contains ?_⟩
  · simp [← Bool.not_eq_true, Region.clip_contains_iff, ha]
  · exact (Region.clip_contains_iff _ _ a).2 ⟨ha, hm⟩

/-- The completion of a disturbed command differs from that of the same command without the mark in the memory, in RLEN,
which is a draw, and in the count of draws alone (R210). -/
theorem complete_disturbed_frame {s t : State} (hd : s.disturbed = true) (h : complete s = .next t) :
    (∃ u, complete { s with disturbed := false } = .next u ∧
      t = { u with mem := t.mem, rlen := t.rlen, draws := t.draws }) ∧ ∃ k, t.rlen = Config.drawWord k := by
  obtain ⟨u, hu, ht⟩ := complete_disturbed s hd
  obtain ⟨u', hu', _, _, hmark, _⟩ := complete_next { s with disturbed := false }
  cases hu.symm.trans hu'
  cases h.symm.trans ht
  refine ⟨⟨u, hu, ?_⟩, ⟨_, rfl⟩⟩
  rw [hmark]
  rfl

/-- It writes nothing outside its write region, and each byte of that region that exists is a draw (R210). -/
theorem complete_disturbed_memory {s t : State} (hb : s.busy = true) (hd : s.disturbed = true) (h : complete s = .next t) :
    (∀ y, s.pendingWrites.contains y = false → t.readByte y = s.readByte y) ∧
    ∀ y, y < s.memSize → s.pendingWrites.contains y = true → ∃ k, t.readByte y = Config.drawByte k := by
  obtain ⟨u, a, bs, hu, hmem, hin, _⟩ := complete_effect s hb
  rw [State.settle_disturbed hd] at hu
  cases h.symm.trans hu
  obtain ⟨houtside, hinside⟩ := s.afterHazard_memory u
  refine ⟨fun y hy => (houtside y hy).trans ?_, hinside⟩
  have hy' : ¬ (a ≤ y ∧ y < a + bs.length) := fun h => by simp [(hin y h.1 h.2).1] at hy
  exact (congrArg (Memory.read · y) hmem).trans (s.mem.read_writeBytes_outside a bs hy')

/-- Settles O52: the regions by the kind of pending command, the disturbing write, the sticky mark, and the completion of
a disturbed command. -/
theorem hostWriteIntoAPendingRegionIsAHazard : Obligations.HostWriteIntoAPendingRegionIsAHazard := by
  refine ⟨fun s x => ⟨fun hb hi => ?_, fun hb hi => ⟨?_, fun hd => ?_, fun hd => ?_⟩, fun h => ?_⟩,
    fun s a bs rest x h hin hax hxb hc => ?_, fun s t => step_keeps_hazard, fun s rest hb hd h => ?_⟩
  · obtain ⟨hr, hw⟩ := State.pendingRegions_encode hb hi
    rw [hr, hw]
    exact ⟨Region.contains_iff _ x, Region.contains_iff _ x⟩
  · rw [(State.pendingRegions_decode hb hi).1]
    exact Region.contains_iff _ x
  · obtain ⟨t, ht, hn⟩ := exec_decode_rlen hd
    rw [(State.pendingRegions_decode hb hi).2]
    exact ⟨t, ht, hn ▸ Region.contains_iff _ x⟩
  · rw [(State.pendingRegions_decode hb hi).2]
    exact State.decodeWrites_disturbed hd x
  · have hnone : ¬ (s.pendingReads.contains x = true ∨ s.pendingWrites.contains x = true) := fun hc => by
      obtain ⟨hb, ⟨hi, _⟩ | ⟨hi, _⟩⟩ := State.pending_region_cases hc
      · exact (h hb).1 hi
      · exact (h hb).2 hi
    simpa using hnone
  · have hd : State.disturbs { s with inputs := rest } ⟨a.toNat, bs.length⟩ = true :=
      (State.disturbs_iff _ _).2 ⟨x, (Region.contains_iff _ x).2 ⟨hax, hxb⟩, hc⟩
    rw [step_mw h (.inr hin), State.hostMemWrite_disturbing hd]
    exact ⟨_, rfl, rfl, fun y hy => s.mem.read_writeBytes_outside a.toNat bs hy⟩
  · rw [step_turn hb h, step_turn (s := { s with disturbed := false }) hb h]
    obtain ⟨t, ht, hbusy, hdone, _⟩ := complete_next { s with inputs := rest }
    obtain ⟨⟨u, hu, hframe⟩, hrlen⟩ := complete_disturbed_frame (by exact hd) ht
    obtain ⟨houtside, hinside⟩ := complete_disturbed_memory (by exact hb) (by exact hd) ht
    exact ⟨t, u, ht, hbusy, hdone, hu, hframe, hrlen, houtside, hinside⟩

end Sys2Proof.Machine
end
